-- ==== Sys2Proof/Word.lean ====
section
/-! DEFINITION. The widths FBR's values travel in: 8-bit bytes and 16-bit command words (R60, R80). -/

namespace Sys2Proof

/-- One framebuffer, glyph ROM or character byte (R22, R62, R83). -/
abbrev Byte := BitVec 8

/-- One word of the command stream, or one host register (R80, R35). -/
abbrev Word := BitVec 16

end Sys2Proof
end

