-- ==== Sys2Proof/Syntax.lean ====
section
/-! DEFINITION. The eleven commands of FBR as syntax (R84, R85), operands already read as R83 reads them: S16 operands are
the exact signed integers, characters are bytes. The counts `n` and `L` are the lengths of the lists. -/

namespace Sys2Proof

/-- A vertex or a pixel: two exact signed coordinates (R11, R85). -/
structure Point where
  x : Int
  y : Int
deriving DecidableEq, Repr

/-- One command (R84). -/
inductive Instr where
  /-- ADDR, R101. -/
  | addr (x y : Int)
  /-- CLEAR, R102. -/
  | clear
  /-- PSET, R103. -/
  | pset (x y : Int)
  /-- LINE, R123. -/
  | line (x1 y1 x2 y2 : Int)
  /-- CIRCLE, R126. -/
  | circle (cx cy r : Int)
  /-- POLYGON, R128: the `n` vertices. -/
  | polygon (vs : List Point)
  /-- POLYLINE, R129: the `n` vertices. -/
  | polyline (vs : List Point)
  /-- SETCUR, R181. -/
  | setcur (col row : Int)
  /-- NEXTLINE, R183. -/
  | nextline
  /-- TEXT, R185: the `L` characters. -/
  | text (s : List Byte)
  /-- GQUERY, R169. -/
  | gquery (c : Byte)
deriving DecidableEq, Repr

end Sys2Proof
end

