-- ==== Sys2Proof/WellFormed.lean ====
section
/-! DEFINITION. Which commands can be written down: every S16 operand in -32768..32767 and every count in 0..65535 (R83,
R88). The hardware never sees any other (U26 of `93_implementation_defined.md`). -/

namespace Sys2Proof

/-- The values an S16 operand word can carry (R83). -/
def isS16 (v : Int) : Bool := decide (-32768 ≤ v ∧ v ≤ 32767)

/-- The values a U16 count word can carry (R83). -/
def isU16 (n : Nat) : Bool := decide (n ≤ 65535)

/-- Both coordinates of a vertex are S16 operands. -/
def Point.wf (p : Point) : Bool := isS16 p.x && isS16 p.y

/-- Every operand fits its word (R83, R88). -/
def Instr.wf : Instr → Bool
  | .addr x y => isS16 x && isS16 y
  | .clear => true
  | .pset x y => isS16 x && isS16 y
  | .line x1 y1 x2 y2 => isS16 x1 && isS16 y1 && isS16 x2 && isS16 y2
  | .circle cx cy r => isS16 cx && isS16 cy && isS16 r
  | .polygon vs => isU16 vs.length && vs.all Point.wf
  | .polyline vs => isU16 vs.length && vs.all Point.wf
  | .setcur col row => isS16 col && isS16 row
  | .nextline => true
  | .text s => isU16 s.length
  | .gquery _ => true

end Sys2Proof
end

