-- ==== Sys2Proof/Decode.lean ====
section
/-! DEFINITION. The command decoder (R81 to R87), total on any sequence of words, and the encoder, both written from the
tables of `30_encoding.md`. -/

namespace Sys2Proof

/-- Bits [15:8] of a header word, which must be 0 (R81). -/
def headerRsv (h : Word) : Byte := h.extractLsb' 8 8

/-- Bits [7:0] of a header word: the opcode (R81). -/
def headerOp (h : Word) : Byte := h.extractLsb' 0 8

/-- The eleven assigned opcodes (R84). -/
inductive Opcode where
  | addr | clear | pset | line | circle | polygon | polyline | setcur | nextline | text | gquery
deriving DecidableEq, Repr

/-- The opcode map (R84): 0x01 to 0x0B, every other opcode unassigned. -/
def opcodeOf (op : Byte) : Option Opcode :=
  match op.toNat with
  | 0x01 => some .addr
  | 0x02 => some .clear
  | 0x03 => some .pset
  | 0x04 => some .line
  | 0x05 => some .circle
  | 0x06 => some .polygon
  | 0x07 => some .polyline
  | 0x08 => some .setcur
  | 0x09 => some .nextline
  | 0x0A => some .text
  | 0x0B => some .gquery
  | _ => none

/-- `len(cmd)` in words, from the opcode and, for POLYGON, POLYLINE and TEXT, word 1 (R82); `none` while the word 1 it needs
is not there yet. -/
def commandLength (op : Opcode) (word1 : Option Word) : Option Nat :=
  match op with
  | .clear => some 1
  | .nextline => some 1
  | .gquery => some 2
  | .addr => some 3
  | .pset => some 3
  | .setcur => some 3
  | .circle => some 4
  | .line => some 5
  | .polygon => word1.map fun n => 2 + 2 * n.toNat
  | .polyline => word1.map fun n => 2 + 2 * n.toNat
  | .text => word1.map fun l => 2 + (l.toNat + 1) / 2

/-- Operand word `j + 1` of a command, counted from the word after its header. -/
def operandWord (ws : List Word) (j : Nat) : Word := ws.getD j 0

/-- An S16 operand: `sext_16` of its word (R13, R83). -/
def readS16 (ws : List Word) (j : Nat) : Int := (operandWord ws j).toInt

/-- A U16 operand: `zext_16` of its word (R13, R83). -/
def readU16 (ws : List Word) (j : Nat) : Nat := (operandWord ws j).toNat

/-- Bits [7:0]: a C8 operand, or the first character of a CH2 word (R83). -/
def lowByte (w : Word) : Byte := w.extractLsb' 0 8

/-- Bits [15:8]: the second character of a CH2 word (R83). -/
def highByte (w : Word) : Byte := w.extractLsb' 8 8

/-- `n` vertices, interleaved `x[k], y[k]` (R85). -/
def readVertices : Nat → List Word → List Point
  | n + 1, x :: y :: ws => ⟨x.toInt, y.toInt⟩ :: readVertices n ws
  | _, _ => []

/-- `L` characters, two to a word, the first in bits [7:0]; the pad byte of an odd `L` is ignored (R83, R85). -/
def readChars : Nat → List Word → List Byte
  | n + 2, w :: ws => lowByte w :: highByte w :: readChars n ws
  | 1, w :: _ => [lowByte w]
  | _, _ => []

/-- The operands of a command, from the words after its header (R85). -/
def readOperands (op : Opcode) (ws : List Word) : Instr :=
  match op with
  | .addr => .addr (readS16 ws 0) (readS16 ws 1)
  | .clear => .clear
  | .pset => .pset (readS16 ws 0) (readS16 ws 1)
  | .line => .line (readS16 ws 0) (readS16 ws 1) (readS16 ws 2) (readS16 ws 3)
  | .circle => .circle (readS16 ws 0) (readS16 ws 1) (readS16 ws 2)
  | .polygon => .polygon (readVertices (readU16 ws 0) (ws.drop 1))
  | .polyline => .polyline (readVertices (readU16 ws 0) (ws.drop 1))
  | .setcur => .setcur (readS16 ws 0) (readS16 ws 1)
  | .nextline => .nextline
  | .text => .text (readChars (readU16 ws 0) (ws.drop 1))
  | .gquery => .gquery (lowByte (operandWord ws 0))

/-- The two causes of IllegalCommand (R221). -/
inductive IllegalCause where
  /-- Cause 1, ReservedHeaderBits. -/
  | reservedHeaderBits
  /-- Cause 2, UnassignedOpcode. -/
  | unassignedOpcode
deriving DecidableEq, Repr

/-- What the decoder says of the words from the stream pointer on (R86). -/
inductive Decoded where
  /-- No word is queued: the engine is idle (R236). -/
  | noWord
  /-- The header word is illegal (R87, R221). -/
  | illegal (cause : IllegalCause) (h : Word)
  /-- A legal header whose command is not all there yet (R226). -/
  | incomplete
  /-- A whole command, and its length in words (R82). -/
  | command (i : Instr) (k : Nat)
deriving DecidableEq, Repr

/-- The decoder (R86): the header check, cause 1 before cause 2 (R227), then the length check, then the operands. -/
def decode : List Word → Decoded
  | [] => .noWord
  | h :: ws =>
    if headerRsv h ≠ 0 then .illegal .reservedHeaderBits h
    else
      match opcodeOf (headerOp h) with
      | none => .illegal .unassignedOpcode h
      | some op =>
        match commandLength op ws.head? with
        | none => .incomplete
        | some k => if ws.length + 1 < k then .incomplete else .command (readOperands op ws) k

/-- Characters packed two to a word, first in bits [7:0], a missing last one as the pad byte 0 (R85, R88). -/
def packChars : List Byte → List Word
  | [] => []
  | [a] => [(0 : Byte) ++ a]
  | a :: b :: s => (b ++ a) :: packChars s

/-- The two words of a vertex (R85). -/
def encodeVertex (p : Point) : List Word := [BitVec.ofInt 16 p.x, BitVec.ofInt 16 p.y]

/-- The words of a command (R85). Ignored bits are encoded as 0 (R88). -/
def encode : Instr → List Word
  | .addr x y => [0x0001, BitVec.ofInt 16 x, BitVec.ofInt 16 y]
  | .clear => [0x0002]
  | .pset x y => [0x0003, BitVec.ofInt 16 x, BitVec.ofInt 16 y]
  | .line x1 y1 x2 y2 => [0x0004, BitVec.ofInt 16 x1, BitVec.ofInt 16 y1, BitVec.ofInt 16 x2, BitVec.ofInt 16 y2]
  | .circle cx cy r => [0x0005, BitVec.ofInt 16 cx, BitVec.ofInt 16 cy, BitVec.ofInt 16 r]
  | .polygon vs => 0x0006 :: BitVec.ofNat 16 vs.length :: vs.flatMap encodeVertex
  | .polyline vs => 0x0007 :: BitVec.ofNat 16 vs.length :: vs.flatMap encodeVertex
  | .setcur col row => [0x0008, BitVec.ofInt 16 col, BitVec.ofInt 16 row]
  | .nextline => [0x0009]
  | .text s => 0x000A :: BitVec.ofNat 16 s.length :: packChars s
  | .gquery c => [0x000B, (0 : Byte) ++ c]

/-- `len(cmd)` of a command as syntax (R82). -/
def Instr.lengthWords : Instr → Nat
  | .addr _ _ => 3
  | .clear => 1
  | .pset _ _ => 3
  | .line _ _ _ _ => 5
  | .circle _ _ _ => 4
  | .polygon vs => 2 + 2 * vs.length
  | .polyline vs => 2 + 2 * vs.length
  | .setcur _ _ => 3
  | .nextline => 1
  | .text s => 2 + (s.length + 1) / 2
  | .gquery _ => 2

/-- The assembler's refusal (R88, U26): words for a command whose operands fit their words, and no others. -/
def assemble (i : Instr) : Option (List Word) := if i.wf then some (encode i) else none

/-- The words of a number of `nbits` bits, the first word its 16 least significant bits; at least the header word. -/
def tableWords (nbits w : Nat) : List Word :=
  (List.range (max 1 ((nbits + 15) / 16))).map fun j => BitVec.ofNat 16 ((w % 2 ^ nbits) / 2 ^ (16 * j))

/-- `ws` with words of 0 after it up to the length its header asks for (R82). -/
def padToCommand (ws : List Word) : List Word :=
  match ws with
  | [] => []
  | h :: rest =>
    match opcodeOf (headerOp h) with
    | none => ws
    | some op => ws ++ List.replicate ((commandLength op (some (rest.headD 0))).getD 0 - ws.length) 0

/-- The command the decoder reads from a row of the opcode table, the bits above `nbits` being 0. -/
def decodeTableWord (nbits w : Nat) : Option Instr :=
  match decode (padToCommand (tableWords nbits w)) with
  | .command i _ => some i
  | _ => none

end Sys2Proof
end

