-- ==== Sys2Proof/Config.lean ====
section
/-! DEFINITION. What is fixed for the life of an FBR instance (R6 to R10, R160), and the free values: what the spec
leaves open. A free value is a constant without a body, so nothing can be proved of which value it is. The
well-formedness of a configuration (R6, R10, R163) stands in `Machine/Operands.lean`. -/

namespace Sys2Proof

/-- `CLEAR_HDR`: what CLEAR does to framebuffer byte 0 (R9). -/
inductive ClearHdr where
  /-- CLEAR writes 0 to byte 0: this hardware. -/
  | zero
  /-- CLEAR leaves byte 0 alone: the alternative the spec keeps (conflict C1). -/
  | keep
deriving DecidableEq, Repr

/-- `kind` and the fields only that kind uses, as one tagged variant (R160, R161). -/
inductive Font where
  /-- `FIXED`: every glyph, and a space, is `cell_width` columns wide. -/
  | fixed (cellWidth : Byte)
  /-- `VARIABLE`: a width and a ROM offset for each code, indexed by code - `first_char`, and the width of a space. -/
  | variable (charWidths : List Byte) (charOffsets : List (BitVec 32)) (spaceWidth : Byte)
deriving DecidableEq, Repr

/-- The glyph table (R160). `bitmapData` is the glyph ROM; its length is `ROMLEN` (R10). -/
structure GlyphTable where
  font : Font
  firstChar : Byte
  lastChar : Byte
  glyphHeightPages : Byte
  horizontalSeparation : Byte
  bitmapData : List Byte
deriving DecidableEq, Repr

/-- The configuration of one FBR instance: `W`, `H`, `CLEAR_HDR` and the glyph table (R6, R8, R9). -/
structure Config where
  width : Nat
  height : Nat
  clearHdr : ClearHdr
  glyphs : GlyphTable
deriving DecidableEq, Repr

namespace Config

/-- FREE VALUE: the byte `i` of the framebuffer after reset number `epoch`, "any byte each", chosen anew at every reset
(R252, R38). -/
opaque freeFbByte (epoch i : Nat) : Byte

/-- FREE VALUE: what host read number `k` of the framebuffer gives at index `a` when the index is not below `N` (R66) or
the read is a race (R256). -/
opaque freeReadByte (k a : Nat) : Byte

/-- FREE VALUE: what host read number `k` of host register `r` gives when the read is a race (R256). -/
opaque freeReadWord (k r : Nat) : Word

/-- FREE VALUE: a glyph ROM byte at an address not below `ROMLEN`. No well-formed configuration reads one (R62). -/
opaque freeRomByte (a : Nat) : Byte

/-- FREE VALUE: `char_widths[k]` past the end of the table. No well-formed configuration reads one (R163). -/
opaque freeCharWidth (k : Nat) : Byte

/-- FREE VALUE: `char_offsets[k]` past the end of the table. No well-formed configuration reads one (R163). -/
opaque freeCharOffset (k : Nat) : BitVec 32

/-- The font F5 of `95_test_vectors.md` section 0: fixed width 5, 'A' to 'Z', one page high, separation 1, and
`ROM[j] = j + 1`. -/
def fontF5 : GlyphTable where
  font := .fixed 5
  firstChar := 0x41
  lastChar := 0x5A
  glyphHeightPages := 1
  horizontalSeparation := 1
  bitmapData := (List.range 130).map fun j => BitVec.ofNat 8 (j + 1)

/-- The configuration of `State.reset`: the geometry and the font every vector of `95_test_vectors.md` uses unless it says
otherwise. DESIGN CHOICE (log entry 2): the spec gives the hardware no single configuration. Unsafe. -/
def conventional : Config where
  width := 128
  height := 64
  clearHdr := .zero
  glyphs := fontF5

end Config

end Sys2Proof
end

