-- ==== Sys2Proof/Machine/State.lean ====
section
/-! DEFINITION. The state of FBR (R20, R37), what it holds after reset (R38), and the reasons a step stops. -/

namespace Sys2Proof.Machine

/-- The framebuffer bytes whose value is known: a list of (index, byte), indices strictly rising (`Memory.wf`). An index
that is not listed has NO listed value: it still holds its free value of the last reset (R252), so no entry can equal
what an unlisted index reads as. -/
abbrev Memory := List Host.Cell

/-- The text cursor: `CUR_COL`, a pixel column, and `CUR_ROW`, a page row (R23, R24). -/
structure Cursor where
  col : BitVec 16
  row : BitVec 16
deriving DecidableEq, Repr

/-- Everything an FBR instance holds between two steps: its configuration, which no step changes (R255); the architectural
state of R20; the unconsumed suffix of the command stream (R37); and one field of the model's own, `resetEpoch`. -/
structure State where
  /-- `W`, `H`, `CLEAR_HDR` and the glyph table: configuration (R6 to R10). -/
  cfg : Config
  /-- `FB[0..N-1]` (R22). -/
  fb : Memory
  /-- `CUR_COL`, `CUR_ROW` (R23, R24). -/
  cursor : Cursor
  /-- `NOLINE` (R26). -/
  noline : Bool
  /-- `ERR` (R27). -/
  err : Bool
  /-- `AVALID` (R28). -/
  avalid : Bool
  /-- `GPRINT` (R29). -/
  gprint : Bool
  /-- `BUSY` (R31). -/
  busy : Bool
  /-- `AIDX` (R32). -/
  aidx : BitVec 32
  /-- `ABIT` (R32). -/
  abit : BitVec 3
  /-- `GWIDTH` (R33). -/
  gwidth : Byte
  /-- `GOFF` (R33). -/
  goff : BitVec 32
  /-- `ERR_CAUSE` (R34). -/
  errCause : BitVec 2
  /-- `ERR_WORD` (R34). -/
  errWord : Word
  /-- `ERR_POS` (R34). -/
  errPos : BitVec 32
  /-- `SP`, the stream pointer (R30). -/
  sp : BitVec 32
  /-- The words the host has sent and the engine has not consumed, from index `SP` on (R37). -/
  queue : List Word
  /-- The model's own: which reset the unlisted framebuffer bytes have their free values from (R252). -/
  resetEpoch : Nat
deriving DecidableEq, Repr

/-- Why a step answers no state. Safe, all of them: the model stops where the hardware has no step, or where no rule gives
it one. -/
inductive Fault where
  /-- `ERR = 1`: the engine consumes no word until reset (R223). Raised by `step`. Safe. -/
  | halted
  /-- No word is queued: the engine is idle and has no step (R236). Raised by `step`. Safe. -/
  | noWordQueued
  /-- The queued words end inside a command: the engine waits, and has no step (R226). Raised by `step`. Safe. -/
  | incompleteCommand
  /-- A write at a framebuffer index that does not exist, `N` or above. Raised by `commit`. Safe: no state with the invariant
  of `Safety.lean` raises it (R71, R106, R190). -/
  | noSuchByte
deriving DecidableEq, Repr

/-- Why the model gives no meaning. -/
inductive Refusal where
  /-- An instruction the model has no meaning for; no arm of `exec` raises it. Safe. -/
  | notModelled (mnemonic : String)
  /-- The configuration is ill-formed, so the instance has no meaning (R6, R10, R163, R254). Raised by `step`. Safe. -/
  | illFormedConfiguration
deriving DecidableEq, Repr

/-- What a meaning answers. -/
abbrev Result := Host.Outcome State Fault Refusal

/-- The state after reset number `epoch` of an instance with configuration `cfg`: every register at the value of R38, no
word queued (R250), the configuration kept (R251), and every framebuffer byte unlisted, that is, at its free value
(R252). -/
def State.resetOf (cfg : Config) (epoch : Nat) : State where
  cfg := cfg
  fb := []
  cursor := ⟨0, 0⟩
  noline := false
  err := false
  avalid := false
  gprint := false
  busy := false
  aidx := 0
  abit := 0
  gwidth := 0
  goff := 0
  errCause := 0
  errWord := 0
  errPos := 0
  sp := 0
  queue := []
  resetEpoch := epoch

/-- The machine right after reset, with the configuration of log entry 2. -/
def State.reset : State := State.resetOf Config.conventional 0

end Sys2Proof.Machine
end

