-- ==== Sys2Proof/Machine/Operands.lean ====
section
/-! DEFINITION. What operands turn into: clamping, the addressing law, the glyph table's queries, and the conditions a
configuration must meet (R6, R7, R14, R53 to R56, R160 to R168). -/

namespace Sys2Proof

open Machine

/-- `clamp(v, lo, hi)` (R14). -/
def clamp (v lo hi : Int) : Int := if v < lo then lo else if hi < v then hi else v

/-- `P`, the number of pages (R7). -/
def Config.pages (c : Config) : Nat := c.height / 8

/-- `N`, the framebuffer's length in bytes (R7). -/
def Config.fbLen (c : Config) : Nat := 1 + c.width * c.pages

/-- `InBounds(x, y)`, on exact signed values (R54). -/
abbrev Config.InBounds (c : Config) (x y : Int) : Prop := 0 ≤ x ∧ x < c.width ∧ 0 ≤ y ∧ y < c.height

/-- `ByteIndex(x, y)` (R53). Every use is guarded by `InBounds`. -/
def Config.byteIndex (c : Config) (x y : Int) : Nat := 1 + x.toNat + y.toNat / 8 * c.width

/-- `BitOffset(x, y)` (R53). -/
def bitOffset (y : Int) : Nat := y.toNat % 8

/-- `PageIndex(x, pg)` (R56). -/
def Config.pageIndex (c : Config) (x pg : Nat) : Nat := 1 + x + pg * c.width

/-- `ClampPt(x, y)` (R120). -/
def Config.clampPt (c : Config) (x y : Int) : Point := ⟨clamp x 0 (c.width - 1), clamp y 0 (c.height - 1)⟩

/-- `G`, the glyph height in pages; also the query `pages()` (R160, R167). -/
def Config.glyphPages (c : Config) : Nat := c.glyphs.glyphHeightPages.toNat

/-- `SEP` (R160). -/
def Config.separation (c : Config) : Nat := c.glyphs.horizontalSeparation.toNat

/-- `is_printable(c)` (R164). -/
abbrev Config.IsPrintable (c : Config) (ch : Byte) : Prop :=
  c.glyphs.firstChar.toNat ≤ ch.toNat ∧ ch.toNat ≤ c.glyphs.lastChar.toNat

/-- `c - first_char`, the index of a printable code in the tables (R160). -/
def Config.charIndex (c : Config) (ch : Byte) : Nat := ch.toNat - c.glyphs.firstChar.toNat

/-- `glyph_width(c)` for a printable code (R165). -/
def Config.glyphWidth (c : Config) (ch : Byte) : Byte :=
  match c.glyphs.font with
  | .fixed cellWidth => cellWidth
  | .variable widths _ _ => widths.getD (c.charIndex ch) (Config.freeCharWidth (c.charIndex ch))

/-- `glyph_byte_offset(c)` for a printable code, exact (R166). -/
def Config.glyphByteOffset (c : Config) (ch : Byte) : Nat :=
  match c.glyphs.font with
  | .fixed cellWidth => c.charIndex ch * cellWidth.toNat * c.glyphPages
  | .variable _ offsets _ => (offsets.getD (c.charIndex ch) (Config.freeCharOffset (c.charIndex ch))).toNat

/-- `SpaceWidth` (R168). -/
def Config.spaceWidth (c : Config) : Nat :=
  match c.glyphs.font with
  | .fixed cellWidth => cellWidth.toNat
  | .variable _ _ spaceWidth => spaceWidth.toNat

/-- `ROM[a]` (R62). -/
def Config.romByte (c : Config) (a : Nat) : Byte := c.glyphs.bitmapData.getD a (Config.freeRomByte a)

/-- `GlyphByte(c, p, i)` (R162). -/
def Config.glyphByte (c : Config) (ch : Byte) (p i : Nat) : Byte :=
  c.romByte (c.glyphByteOffset ch + p * (c.glyphWidth ch).toNat + i)

/-- The ROM has at least `n` bytes: `n <= ROMLEN` (R10). -/
def romReaches : Nat → List Byte → Bool
  | 0, _ => true
  | _ + 1, [] => false
  | n + 1, _ :: rom => romReaches n rom

/-- The geometry's ranges (R6). -/
abbrev Config.GeometryWf (c : Config) : Prop :=
  1 ≤ c.width ∧ c.width ≤ 32767 ∧ 8 ≤ c.height ∧ c.height ≤ 32760 ∧ c.height % 8 = 0

/-- The tables of a variable font have an entry for every code (R163, item 3). -/
def GlyphTable.tablesWf (g : GlyphTable) : Bool :=
  match g.font with
  | .fixed _ => true
  | .variable widths offsets _ =>
    decide (widths.length = g.lastChar.toNat - g.firstChar.toNat + 1 ∧
      offsets.length = g.lastChar.toNat - g.firstChar.toNat + 1)

/-- Every code of the range `first_char..last_char` (R164). -/
def Config.printableCodes (c : Config) : List Byte :=
  (List.range' c.glyphs.firstChar.toNat (c.glyphs.lastChar.toNat + 1 - c.glyphs.firstChar.toNat)).map (BitVec.ofNat 8)

/-- The bytes of a code's glyph all lie in the ROM (R163, item 4). -/
def Config.glyphInRom (c : Config) (ch : Byte) : Bool :=
  romReaches (c.glyphByteOffset ch + (c.glyphWidth ch).toNat * c.glyphPages) c.glyphs.bitmapData

/-- `ROMLEN` is at most 2^32 (R10). -/
def GlyphTable.romWf (g : GlyphTable) : Bool := !romReaches (2 ^ 32 + 1) g.bitmapData

/-- The range of codes is not empty, and a glyph is at least one page high and no higher than the canvas (R163, items 1
and 2). -/
abbrev Config.RangesWf (c : Config) : Prop :=
  c.glyphs.firstChar.toNat ≤ c.glyphs.lastChar.toNat ∧ 1 ≤ c.glyphPages ∧ c.glyphPages ≤ c.pages

/-- A well-formed glyph table (R10, R163). -/
def Config.glyphsWf (c : Config) : Bool :=
  decide c.RangesWf && c.glyphs.romWf && c.glyphs.tablesWf && c.printableCodes.all c.glyphInRom

/-- A well-formed configuration: the only kind a model gives a meaning to (R6, R163, R254). -/
def Config.wf (c : Config) : Bool := decide c.GeometryWf && c.glyphsWf

end Sys2Proof
end

