-- ==== Sys2Proof/Machine/Ops.lean ====
section
/-! DEFINITION. The operations every command is built from: reading and writing framebuffer bytes (R59, R66), the set-pixel
primitive (R100), the cursor primitives (R180, R182), taking the exception (R222), and starting and retiring a command
(R86). There is no return from the exception: only reset leaves it (R224; `hostReset` in `HostPort.lean`). -/

namespace Sys2Proof.Machine

/-- The listed value of index `a`. -/
def Memory.read : Memory → Nat → Option Byte
  | [], _ => none
  | (b, v) :: m, a => if b = a then some v else Memory.read m a

/-- Give index `a` the value `v`, keeping the indices rising. -/
def Memory.write : Memory → Nat → Byte → Memory
  | [], a, v => [(a, v)]
  | (b, u) :: m, a, v =>
    if a < b then (a, v) :: (b, u) :: m
    else if a = b then (a, v) :: m
    else (b, u) :: Memory.write m a v

/-- Give each of the `n` indices from `lo` on the value `v`. -/
def Memory.fill (m : Memory) (lo n : Nat) (v : Byte) : Memory :=
  m.filter (fun c => decide (c.1 < lo)) ++ (List.range' lo n).map (fun a => (a, v)) ++
    m.filter (fun c => decide (lo + n ≤ c.1))

/-- The canonical form: indices strictly rising. -/
abbrev Memory.wf (m : Memory) : Prop := m.Pairwise fun c d => c.1 < d.1

/-- What byte `i` holds: its listed value, or its free value of reset number `epoch` (R252). -/
def Memory.byte (epoch : Nat) (m : Memory) (i : Nat) : Byte := (m.read i).getD (Config.freeFbByte epoch i)

/-- `FB[i]` (R16, R22). -/
def State.fbByte (s : State) (i : Nat) : Byte := s.fb.byte s.resetEpoch i

/-- `Pixel(x, y)` (R57). -/
def State.pixel (s : State) (x y : Int) : Bool := (s.fbByte (s.cfg.byteIndex x y)).getLsbD (bitOffset y)

/-- `CUR_COL` and `CUR_ROW` written (R23, R24). -/
def State.withCursor (s : State) (cur : Cursor) : State := { s with cursor := cur }

/-- The framebuffer written. -/
def State.withFb (s : State) (m : Memory) : State := { s with fb := m }

/-- The two ways a drawing command writes a framebuffer byte (R59); the third, CLEAR's zero, is `Memory.fill`. -/
inductive FbWrite where
  /-- OR-write: set bit `b` of byte `i`, keep the other seven. -/
  | orBit (i b : Nat)
  /-- Overwrite: replace byte `i` by `v`. -/
  | overwrite (i : Nat) (v : Byte)
deriving DecidableEq, Repr

/-- The index a write goes to. -/
def FbWrite.index : FbWrite → Nat
  | .orBit i _ => i
  | .overwrite i _ => i

/-- One write (R59). -/
def FbWrite.apply (epoch : Nat) (m : Memory) : FbWrite → Memory
  | .orBit i b => m.write i (m.byte epoch i ||| (1 : Byte) <<< b)
  | .overwrite i v => m.write i v

/-- The framebuffer after `ws`, in order (R64). -/
def applyWrites (epoch : Nat) (m : Memory) (ws : List FbWrite) : Memory := ws.foldl (FbWrite.apply epoch) m

/-- Do the writes `ws`, in order, if each goes to a byte that exists. -/
def commit (ws : List FbWrite) (s : State) : Result :=
  if ws.all (fun w => decide (w.index < s.cfg.fbLen)) then
    .next (s.withFb (applyWrites s.resetEpoch s.fb ws))
  else .fault .noSuchByte

/-- `SetPixel(x, y)`: the one OR-write it makes, none out of bounds (R100). -/
def Config.setPixel (c : Config) (p : Point) : Option FbWrite :=
  if c.InBounds p.x p.y then some (.orBit (c.byteIndex p.x p.y) (bitOffset p.y)) else none

/-- The writes of calls of SetPixel on `ps`, in order. -/
def pixelWrites (c : Config) (ps : List Point) : List FbWrite := ps.filterMap (Config.setPixel c)

/-- Call SetPixel on `ps`, in order (R100). -/
def drawPixels (ps : List Point) (s : State) : Result := commit (pixelWrites s.cfg ps) s

/-- `SetCursor(col, row)` (R180). -/
def setCursor (c : Config) (col row : Int) : Cursor where
  row := BitVec.ofInt 16 (clamp row 0 (c.pages - c.glyphPages))
  col := BitVec.ofInt 16 (clamp col 0 (c.width - 1))

/-- `AdvanceLine()`: the cursor it leaves, or `none` for FAIL (R182). -/
def advanceLine (c : Config) (cur : Cursor) : Option Cursor :=
  if (cur.row.toNat : Int) + c.glyphPages > c.pages - c.glyphPages then none
  else some ⟨0, BitVec.ofNat 16 (cur.row.toNat + c.glyphPages)⟩

/-- The cause code recorded in `ERR_CAUSE` (R34, R221). -/
def causeCode : IllegalCause → BitVec 2
  | .reservedHeaderBits => 1
  | .unassignedOpcode => 2

/-- `raise IllegalCommand(cause, h, SP)`: what it records, everything else unchanged, the word not consumed (R222). -/
def raiseIllegalCommand (cause : IllegalCause) (h : Word) (s : State) : State :=
  { s with err := true, errCause := causeCode cause, errWord := h, errPos := s.sp }

/-- A command starts executing: `BUSY` is 1 (R31). -/
def beginCommand (s : State) : State := { s with busy := true }

/-- A command of `k` words completes: `SP <- SP + k` modulo 2^32, its words consumed, `BUSY` 0 (R30, R31, R86). -/
def retireCommand (k : Nat) (s : State) : State :=
  { s with busy := false, sp := s.sp + BitVec.ofNat 32 k, queue := s.queue.drop k }

/-- `retireCommand` on the state a meaning answers, if it answers one. -/
def retire (k : Nat) : Result → Result
  | .next s => .next (retireCommand k s)
  | .fault f => .fault f
  | .refused r => .refused r

/-- Put `ws` where the next command is fetched from: over the first words of the queue. -/
def placeWords (ws : List Word) (s : State) : State := { s with queue := ws ++ s.queue.drop ws.length }

end Sys2Proof.Machine
end

