-- ==== Sys2Proof/Machine/Flags.lean ====
section
/-! DEFINITION. The flags and result registers commands write, and the STATUS word the flags are read in (R26 to R34,
R36). -/

namespace Sys2Proof.Machine

/-- A flag as one bit of a word. -/
def flagBit (b : Bool) : BitVec 1 := if b then 1 else 0

/-- STATUS, host register 0 (R36): from bit 0, `BUSY`, `NOLINE`, `ERR`, `AVALID`, `GPRINT`, `ERR_CAUSE`, zeros. -/
def statusWord (s : State) : Word :=
  (0 : BitVec 9) ++ s.errCause ++ flagBit s.gprint ++ flagBit s.avalid ++ flagBit s.err ++ flagBit s.noline ++
    flagBit s.busy

/-- The answer of ADDR: `AVALID`, `AIDX`, `ABIT` (R28, R32, R101). -/
def State.withAddress (s : State) (valid : Bool) (idx bit : Nat) : State :=
  { s with avalid := valid, aidx := BitVec.ofNat 32 idx, abit := BitVec.ofNat 3 bit }

/-- The answer of GQUERY: `GPRINT`, `GWIDTH`, `GOFF` (R29, R33, R169). -/
def State.withGlyph (s : State) (printable : Bool) (width : Byte) (offset : Nat) : State :=
  { s with gprint := printable, gwidth := width, goff := BitVec.ofNat 32 offset }

/-- The answer of NEXTLINE: `NOLINE` (R26, R183). -/
def State.withNoline (s : State) (failed : Bool) : State := { s with noline := failed }

end Sys2Proof.Machine
end

