-- ==== Sys2Proof/Machine/Framebuffer.lean ====
section
/-! DEFINITION. The meanings of ADDR, CLEAR and PSET (`40_framebuffer.md`). -/

namespace Sys2Proof.Machine

/-- ADDR (R101). -/
def execAddr (x y : Int) (s : State) : Result :=
  if s.cfg.InBounds x y then .next (s.withAddress true (s.cfg.byteIndex x y) (bitOffset y))
  else .next (s.withAddress false 0 0)

/-- The framebuffer after CLEAR (R102): pixel bytes 0, and byte 0 too under `CLEAR_HDR = ZERO`. -/
def clearedFb (c : Config) (m : Memory) : Memory :=
  match c.clearHdr with
  | .zero => m.fill 0 c.fbLen 0
  | .keep => m.fill 1 (c.fbLen - 1) 0

/-- CLEAR (R102). -/
def execClear (s : State) : Result := .next (s.withFb (clearedFb s.cfg s.fb))

/-- PSET (R103). -/
def execPset (x y : Int) (s : State) : Result := drawPixels [⟨x, y⟩] s

end Sys2Proof.Machine
end

