-- ==== Sys2Proof/Machine/Glyph.lean ====
section
/-! DEFINITION. The meaning of GQUERY (`42_glyph.md`); the queries it asks stand in `Operands.lean`. -/

namespace Sys2Proof.Machine

/-- GQUERY (R169). -/
def execGquery (ch : Byte) (s : State) : Result :=
  if s.cfg.IsPrintable ch then .next (s.withGlyph true (s.cfg.glyphWidth ch) (s.cfg.glyphByteOffset ch))
  else .next (s.withGlyph false 0 0)

end Sys2Proof.Machine
end

