-- ==== Sys2Proof/Machine/Raster.lean ====
section
/-! DEFINITION. The meanings of LINE, CIRCLE, POLYGON and POLYLINE (`41_raster.md`): each calls SetPixel on a list of
points, in the order of its pseudocode. -/

namespace Sys2Proof.Machine

/-- `Canon`: the two endpoints in lexicographic order (R121). -/
def canon (a b : Point) : Point × Point :=
  if b.x < a.x ∨ (b.x = a.x ∧ b.y < a.y) then (b, a) else (a, b)

/-- What one segment keeps through its loop: the endpoint `xe, ye`, `dx`, `dy`, and the steps `sx`, `sy` (R122). -/
structure LineParams where
  xe : Int
  ye : Int
  dx : Int
  dy : Int
  sx : Int
  sy : Int
deriving DecidableEq, Repr

/-- `dx`, `dy`, `sx`, `sy` of a segment from `a` to `b` (R122). -/
def lineParams (a b : Point) : LineParams where
  xe := b.x
  ye := b.y
  dx := |b.x - a.x|
  dy := -|b.y - a.y|
  sx := if a.x < b.x then 1 else -1
  sy := if a.y < b.y then 1 else -1

/-- What changes in the loop: the pixel and the error accumulator. -/
structure LineState where
  x : Int
  y : Int
  err : Int
deriving DecidableEq, Repr

/-- The loop's updates: both tests use the same `e2`, and the first update comes first (R122). -/
def lineStep (p : LineParams) (t : LineState) : LineState :=
  let e2 := 2 * t.err
  let x1 := if e2 ≥ p.dy then t.x + p.sx else t.x
  let err1 := if e2 ≥ p.dy then t.err + p.dy else t.err
  let y1 := if e2 ≤ p.dx then t.y + p.sy else t.y
  let err2 := if e2 ≤ p.dx then err1 + p.dx else err1
  ⟨x1, y1, err2⟩

/-- The loop (R122): the points SetPixel is called on, in order, for at most `fuel` rounds. -/
def lineLoop (p : LineParams) : Nat → LineState → List Point
  | 0, _ => []
  | fuel + 1, t =>
    ⟨t.x, t.y⟩ :: (if t.x = p.xe ∧ t.y = p.ye then [] else lineLoop p fuel (lineStep p t))

/-- The points of the segment from `a` to `b`, which are already clamped and in canonical order (R122). A segment has
`max(dx, ady) + 1` points (R124), so `dx + ady + 1` rounds are enough. -/
def segmentPoints (a b : Point) : List Point :=
  let p := lineParams a b
  lineLoop p (p.dx - p.dy + 1).toNat ⟨a.x, a.y, p.dx + p.dy⟩

/-- `DrawLine(x1, y1, x2, y2)`: the points it calls SetPixel on, in order (R122). -/
def linePoints (c : Config) (x1 y1 x2 y2 : Int) : List Point :=
  let ends := canon (c.clampPt x1 y1) (c.clampPt x2 y2)
  segmentPoints ends.1 ends.2

/-- LINE (R123). -/
def execLine (x1 y1 x2 y2 : Int) (s : State) : Result := drawPixels (linePoints s.cfg x1 y1 x2 y2) s

/-- What changes in the circle's loop (R125). -/
structure CircleState where
  x : Int
  y : Int
  err : Int
deriving DecidableEq, Repr

/-- The four points of one round, in order (R125, R131). -/
def circleRound (cx cy : Int) (t : CircleState) : List Point :=
  [⟨cx - t.x, cy + t.y⟩, ⟨cx - t.y, cy - t.x⟩, ⟨cx + t.x, cy - t.y⟩, ⟨cx + t.y, cy + t.x⟩]

/-- The loop's updates: `t <- err` before them, and the second test uses `err` and `y` after the first (R125). -/
def circleStep (t : CircleState) : CircleState :=
  let y1 := if t.err ≤ t.y then t.y + 1 else t.y
  let err1 := if t.err ≤ t.y then t.err + 2 * y1 + 1 else t.err
  if t.err > t.x ∨ err1 > y1 then ⟨t.x + 1, y1, err1 + 2 * (t.x + 1) + 1⟩ else ⟨t.x, y1, err1⟩

/-- The loop (R125): the points SetPixel is called on, in order, for at most `fuel` rounds. -/
def circleLoop (cx cy : Int) : Nat → CircleState → List Point
  | 0, _ => []
  | fuel + 1, t =>
    circleRound cx cy t ++
      (if (circleStep t).x ≥ 0 then [] else circleLoop cx cy fuel (circleStep t))

/-- The state before the first round, for a radius that is not negative (R125). -/
def circleStart (r : Int) : CircleState := ⟨-r, 0, 2 - 2 * r⟩

/-- `DrawCircle(cx, cy, r)`: the points it calls SetPixel on, in order; a negative radius is 0 (R125). The loop ends after at
most `2r + 1` rounds (R127). -/
def circlePoints (cx cy r : Int) : List Point :=
  let r := if r < 0 then 0 else r
  circleLoop cx cy (2 * r + 1).toNat (circleStart r)

/-- CIRCLE (R126). -/
def execCircle (cx cy r : Int) (s : State) : Result := drawPixels (circlePoints cx cy r) s

/-- The edges from vertex `i` to vertex `i + 1`, for `i` in `0..n-2` (R128, R129). -/
def openEdges (vs : List Point) : List (Point × Point) := vs.zip vs.tail

/-- The closing edge, from vertex `n-1` to vertex 0, when `n >= 2` (R128). -/
def closingEdge (vs : List Point) : List (Point × Point) :=
  match vs with
  | v0 :: v1 :: rest => [((v1 :: rest).getLastD v1, v0)]
  | _ => []

/-- The points of edges drawn one after the other by DrawLine (R122). -/
def edgePoints (c : Config) (es : List (Point × Point)) : List Point :=
  es.flatMap fun e => linePoints c e.1.x e.1.y e.2.x e.2.y

/-- POLYGON (R128). -/
def execPolygon (vs : List Point) (s : State) : Result :=
  drawPixels (edgePoints s.cfg (openEdges vs ++ closingEdge vs)) s

/-- POLYLINE (R129). -/
def execPolyline (vs : List Point) (s : State) : Result := drawPixels (edgePoints s.cfg (openEdges vs)) s

end Sys2Proof.Machine
end

