-- ==== Sys2Proof/Machine/Text.lean ====
section
/-! DEFINITION. The meanings of SETCUR, NEXTLINE and TEXT (`43_text.md`). No step of TEXT reads the framebuffer, so the
cursor's path and the writes are computed first, and the writes are then done in order. -/

namespace Sys2Proof.Machine

/-- SETCUR (R181). -/
def execSetcur (col row : Int) (s : State) : Result := .next (s.withCursor (setCursor s.cfg col row))

/-- NEXTLINE (R183). -/
def execNextline (s : State) : Result :=
  match advanceLine s.cfg s.cursor with
  | some cur => .next ((s.withCursor cur).withNoline false)
  | none => .next (s.withNoline true)

/-- The code of the space character (R186). -/
def spaceCode : Byte := 0x20

/-- `Blit(o, w)` at the cursor: the bytes it overwrites, page by page, the columns at `W` or more dropped (R184). -/
def blitWrites (c : Config) (cur : Cursor) (o w : Nat) : List FbWrite :=
  (List.range c.glyphPages).flatMap fun p =>
    (List.range w).filterMap fun i =>
      if cur.col.toNat + i < c.width then
        some (.overwrite (c.pageIndex (cur.col.toNat + i) (cur.row.toNat + p)) (c.romByte (o + p * w + i)))
      else none

/-- `SpaceStep()` (R186). -/
def spaceStep (c : Config) (cur : Cursor) : Cursor := setCursor c (cur.col.toNat + c.spaceWidth) cur.row.toNat

/-- The wrap of a glyph of width `w`: the cursor the glyph is drawn at, `none` when the advance fails (R187). -/
def wrapCursor (c : Config) (w : Nat) (cur : Cursor) : Option Cursor :=
  if cur.col.toNat + w ≥ c.width then advanceLine c cur else some cur

/-- The advance after a glyph of width `w`, from the next character of the string if there is one (R187). -/
def glyphAdvance (c : Config) (w : Nat) (next : Option Byte) : Nat :=
  if next = some spaceCode then w else w + c.separation

/-- `GlyphStep(k)`: the cursor after it and its writes, `none` for STOP (R187). -/
def glyphStep (c : Config) (ch : Byte) (next : Option Byte) (cur : Cursor) : Option (Cursor × List FbWrite) :=
  let w := (c.glyphWidth ch).toNat
  match wrapCursor c w cur with
  | none => none
  | some cur1 =>
    some (setCursor c (cur1.col.toNat + glyphAdvance c w next) cur1.row.toNat,
      blitWrites c cur1 (c.glyphByteOffset ch) w)

/-- The loop of TEXT over the characters left: the cursor it ends with and its writes, in order (R185). -/
def textRun (c : Config) : List Byte → Cursor → Cursor × List FbWrite
  | [], cur => (cur, [])
  | ch :: rest, cur =>
    if ch = spaceCode then textRun c rest (spaceStep c cur)
    else if c.IsPrintable ch then
      match glyphStep c ch rest.head? cur with
      | none => (cur, [])
      | some (cur1, ws) => ((textRun c rest cur1).1, ws ++ (textRun c rest cur1).2)
    else textRun c rest cur

/-- TEXT (R185). -/
def execText (str : List Byte) (s : State) : Result :=
  commit (textRun s.cfg str s.cursor).2 (s.withCursor (textRun s.cfg str s.cursor).1)

end Sys2Proof.Machine
end

