-- ==== Sys2Proof/Machine/Dispatch.lean ====
section
/-! DEFINITION. The effect of each command (R84): one arm per command. -/

namespace Sys2Proof.Machine

/-- The rule of R84 for a command, as its effect on the state; `step` adds the stream pointer and `BUSY`. -/
def exec (i : Instr) (s : State) : Host.Outcome State Fault Refusal :=
  match i with
  | .addr x y => Sys2Proof.Machine.execAddr x y s
  | .clear => Sys2Proof.Machine.execClear s
  | .pset x y => Sys2Proof.Machine.execPset x y s
  | .line x1 y1 x2 y2 => Sys2Proof.Machine.execLine x1 y1 x2 y2 s
  | .circle cx cy r => Sys2Proof.Machine.execCircle cx cy r s
  | .polygon vs => Sys2Proof.Machine.execPolygon vs s
  | .polyline vs => Sys2Proof.Machine.execPolyline vs s
  | .setcur col row => Sys2Proof.Machine.execSetcur col row s
  | .nextline => Sys2Proof.Machine.execNextline s
  | .text str => Sys2Proof.Machine.execText str s
  | .gquery c => Sys2Proof.Machine.execGquery c s

end Sys2Proof.Machine
end

