-- ==== Sys2Proof/Machine/Step.lean ====
section
/-! DEFINITION. One step of the command engine (R86), and where the host's check places a command. -/

namespace Sys2Proof.Machine

/-- One step (R17, R86). An ill-formed configuration is refused (R254); a halted engine has no step (R223); an illegal header
raises IllegalCommand, which is a next state (R222; DESIGN CHOICE, log entry 4); an idle engine and an incomplete
command have no step (R226, R236); a whole command executes, and then the stream pointer moves past it. -/
def step (s : State) : Host.Outcome State Fault Refusal :=
  if s.cfg.wf then
    if s.err then .fault .halted
    else
      match decode s.queue with
      | .noWord => .fault .noWordQueued
      | .illegal cause h => .next (raiseIllegalCommand cause h s)
      | .incomplete => .fault .incompleteCommand
      | .command i k => retire k (exec i (beginCommand s))
  else .refused .illFormedConfiguration

/-- `s` with the command of a table row at the head of its word queue, which is where `step` fetches; the bits above `nbits`
are 0 up to the length the command's words ask for. -/
def State.withFetchWord (s : State) (nbits w : Nat) : State := placeWords (padToCommand (tableWords nbits w)) s

end Sys2Proof.Machine
end

