-- ==== Sys2Proof/Machine/HostPort.lean ====
section
/-! DEFINITION. What the host does to FBR (R261): it sends words, reads host registers, reads framebuffer bytes and asserts
reset. None of these is a step of the engine. A read answers a value and leaves the state as it is (R35, R66); the
argument `k` numbers the reads, so that two reads of one place may answer two free values. -/

namespace Sys2Proof.Machine

/-- The host sends command words, in order, after those already queued (R80, R261). -/
def hostSend (ws : List Word) (s : State) : State := { s with queue := s.queue ++ ws }

/-- The host asserts reset (R250): every word not consumed is discarded, every register takes its reset value, the
configuration stays (R251), and every framebuffer byte takes a new free value (R252). -/
def hostReset (s : State) : State := State.resetOf s.cfg (s.resetEpoch + 1)

/-- A host read is a race while a command executes, and never while the engine is halted (R224, R256). -/
def readRaces (s : State) : Bool := s.busy && !s.err

/-- The content of a host register (R36). -/
def hostRegister (s : State) (r : BitVec 4) : Word :=
  match r.toNat with
  | 0 => statusWord s
  | 1 => s.cursor.col
  | 2 => s.cursor.row
  | 3 => s.aidx.extractLsb' 0 16
  | 4 => s.aidx.extractLsb' 16 16
  | 5 => (0 : BitVec 13) ++ s.abit
  | 6 => (0 : BitVec 8) ++ s.gwidth
  | 7 => s.goff.extractLsb' 0 16
  | 8 => s.goff.extractLsb' 16 16
  | 9 => s.errWord
  | 10 => s.errPos.extractLsb' 0 16
  | 11 => s.errPos.extractLsb' 16 16
  | _ => 0

/-- Host read number `k`, of host register `r` (R36): any value when it races, but for STATUS (R256). -/
def hostReadRegister (k : Nat) (s : State) (r : BitVec 4) : Word :=
  if r ≠ 0 ∧ readRaces s then Config.freeReadWord k r.toNat else hostRegister s r

/-- Host read number `k`, of framebuffer index `a` (R66): any value at `N` or above, or when it races (R256). -/
def hostReadFb (k : Nat) (s : State) (a : Nat) : Byte :=
  if a < s.cfg.fbLen ∧ ¬ readRaces s then s.fbByte a else Config.freeReadByte k a

/-- The host sees that every command it sent has completed: STATUS reads `BUSY = 0` and no word is queued (R65). -/
def hostSeesCompletion (s : State) : Bool := !(statusWord s).getLsbD 0 && s.queue.isEmpty

end Sys2Proof.Machine
end

