-- ==== Sys2Proof/Safety.lean ====
section
/-! DEFINITION. What holds of every state a run reaches, which states a run reaches, and the ends of a run (R260), in the
terms claims use. -/

namespace Sys2Proof.Machine

/-- ADDR's answer (R28, R32, R101): a byte index of a pixel, or zeros. -/
def AddressAnswer (s : State) : Prop :=
  if s.avalid then 1 ≤ s.aidx.toNat ∧ s.aidx.toNat < s.cfg.fbLen else s.aidx = 0 ∧ s.abit = 0

/-- GQUERY's answer (R29, R33, R163, R169): a glyph that lies in the ROM, or zeros. -/
def GlyphAnswer (s : State) : Prop :=
  if s.gprint then s.goff.toNat + s.gwidth.toNat * s.cfg.glyphPages ≤ s.cfg.glyphs.bitmapData.length
  else s.gwidth = 0 ∧ s.goff = 0

/-- The fault record (R34, R222): zeros while `ERR = 0`; with `ERR = 1` the cause of the header word that is still the next
word of the stream, and its position. -/
def FaultRecord (s : State) : Prop :=
  if s.err then
    s.errPos = s.sp ∧ s.queue.head? = some s.errWord ∧
      ((s.errCause = 1 ∧ 0x100 ≤ s.errWord.toNat) ∨
        (s.errCause = 2 ∧ (s.errWord.toNat = 0 ∨ (0x0C ≤ s.errWord.toNat ∧ s.errWord.toNat ≤ 0xFF))))
  else s.errCause = 0 ∧ s.errWord = 0 ∧ s.errPos = 0

/-- What holds of every state, between commands and at the start of one. -/
structure StateInv (s : State) : Prop where
  /-- The configuration is well-formed (R254). -/
  config : s.cfg.wf = true
  /-- The framebuffer is in its canonical form. -/
  canonical : s.fb.wf
  /-- No byte exists at `N` or above (R51, R106, R190). -/
  inRange : ∀ c ∈ s.fb, c.1 < s.cfg.fbLen
  /-- `CUR_COL <= W - 1` (R23, R25). -/
  column : s.cursor.col.toNat < s.cfg.width
  /-- `CUR_ROW <= P - G` (R24, R25). -/
  row : s.cursor.row.toNat + s.cfg.glyphPages ≤ s.cfg.pages
  address : AddressAnswer s
  glyph : GlyphAnswer s
  record : FaultRecord s

/-- A state between two commands: the invariant, and `BUSY = 0` (R31). -/
def BetweenCommands (s : State) : Prop := StateInv s ∧ s.busy = false

/-- A point of one of the edges from vertex `i` to vertex `i + 1` (R128, R129). -/
def OnOpenEdge (c : Config) (vs : List Point) (p : Point) : Prop :=
  ∃ i a b, vs[i]? = some a ∧ vs[i + 1]? = some b ∧ p ∈ linePoints c a.x a.y b.x b.y

/-- A point of the closing edge, which is there with two vertices or more (R128). -/
def OnClosingEdge (c : Config) (vs : List Point) (p : Point) : Prop :=
  2 ≤ vs.length ∧ ∃ a b, vs.getLast? = some a ∧ vs.head? = some b ∧ p ∈ linePoints c a.x a.y b.x b.y

/-- The states an instance with configuration `c` reaches: after any reset, by steps of the engine, by words the host sends
and by resets (R261). -/
inductive Reachable (c : Config) : State → Prop
  | reset (epoch : Nat) : Reachable c (State.resetOf c epoch)
  | step (s t : State) (hs : Reachable c s) (h : step s = .next t) : Reachable c t
  | send (s : State) (ws : List Word) (hs : Reachable c s) : Reachable c (hostSend ws s)
  | hostReset (s : State) (hs : Reachable c s) : Reachable c (hostReset s)

/-- *Completed*: every word consumed, no fault, no command executing; the only final state (R260). -/
def Completed (s : State) : Prop := s.err = false ∧ s.queue = [] ∧ s.busy = false

/-- *Faulted*: `ERR = 1`, and `SP = ERR_POS` is the index of the offending header (R260). -/
def Faulted (s : State) : Prop := s.err = true ∧ s.sp = s.errPos ∧ s.queue.head? = some s.errWord

/-- *Stuck*: no fault, and the words left form an incomplete command (R260). -/
def Stuck (s : State) : Prop := s.err = false ∧ s.queue ≠ [] ∧ decode s.queue = .incomplete

end Sys2Proof.Machine
end

