-- ==== Sys2Proof/Certificates/Slice0/Obligations.lean ====
section
/-! DEFINITION. The statements about the model, each from the rules of spec/ its docstring names. Where a statement says
`t = { s with … }`, every field not named, the framebuffer among them, is the same in `t` as in `s`. -/

open Sys2Proof Sys2Proof.Machine

/-! ## Encoding -/

/-- One word sequence for each command, written out from R81, R83 and R85, is read as that command and its length. -/
def Obligations.SpecWordsDecodeToTheirCommands : Prop :=
  decode [0x0001, 0x0005, 0x000D] = .command (.addr 5 13) 3 ∧
  decode [0x0002] = .command .clear 1 ∧
  decode [0x0003, 0xFFFF, 0x8000] = .command (.pset (-1) (-32768)) 3 ∧
  decode [0x0004, 0xFFFB, 0xFFFB, 0xFFFF, 0xFFF7] = .command (.line (-5) (-5) (-1) (-9)) 5 ∧
  decode [0x0005, 0x000A, 0x000A, 0x0002] = .command (.circle 10 10 2) 4 ∧
  decode [0x0006, 0x0002, 0x0001, 0x0002, 0x0003, 0x0004] = .command (.polygon [⟨1, 2⟩, ⟨3, 4⟩]) 6 ∧
  decode [0x0007, 0x0002, 0x0006, 0x0000, 0x0008, 0x0001] = .command (.polyline [⟨6, 0⟩, ⟨8, 1⟩]) 6 ∧
  decode [0x0008, 0xFFFC, 0x00C8] = .command (.setcur (-4) 200) 3 ∧
  decode [0x0009] = .command .nextline 1 ∧
  decode [0x000A, 0x0003, 0x4241, 0x9943] = .command (.text [0x41, 0x42, 0x43]) 4 ∧
  decode [0x000B, 0xFF43] = .command (.gquery 0x43) 2

/-- The word-by-word layout of every command, operand words of any value (R85): the vertices of POLYGON and POLYLINE are
interleaved, the characters of TEXT are two to a word, the first in bits [7:0]. -/
def Obligations.EveryCommandReadsItsWordsInOrder : Prop :=
  (∀ x y : Word, decode [0x0001, x, y] = .command (.addr x.toInt y.toInt) 3) ∧
  decode [0x0002] = .command .clear 1 ∧
  (∀ x y : Word, decode [0x0003, x, y] = .command (.pset x.toInt y.toInt) 3) ∧
  (∀ x1 y1 x2 y2 : Word, decode [0x0004, x1, y1, x2, y2] = .command (.line x1.toInt y1.toInt x2.toInt y2.toInt) 5) ∧
  (∀ cx cy r : Word, decode [0x0005, cx, cy, r] = .command (.circle cx.toInt cy.toInt r.toInt) 4) ∧
  (∀ (n : Word) (ws : List Word), ws.length = 2 * n.toNat → ∃ vs : List Point,
    decode (0x0006 :: n :: ws) = .command (.polygon vs) (2 + 2 * n.toNat) ∧
    decode (0x0007 :: n :: ws) = .command (.polyline vs) (2 + 2 * n.toNat) ∧ vs.length = n.toNat ∧
    ∀ k, k < n.toNat → vs[k]? = some ⟨(ws.getD (2 * k) 0).toInt, (ws.getD (2 * k + 1) 0).toInt⟩) ∧
  (∀ col row : Word, decode [0x0008, col, row] = .command (.setcur col.toInt row.toInt) 3) ∧
  decode [0x0009] = .command .nextline 1 ∧
  (∀ (l : Word) (ws : List Word), ws.length = (l.toNat + 1) / 2 → ∃ s : List Byte,
    decode (0x000A :: l :: ws) = .command (.text s) (2 + (l.toNat + 1) / 2) ∧ s.length = l.toNat ∧
    (∀ k, 2 * k < l.toNat → (s[2 * k]?).map BitVec.toNat = some ((ws.getD k 0).toNat % 256)) ∧
    ∀ k, 2 * k + 1 < l.toNat → (s[2 * k + 1]?).map BitVec.toNat = some ((ws.getD k 0).toNat / 256)) ∧
  ∀ c : Word, decode [0x000B, c] = .command (.gquery (BitVec.ofNat 8 (c.toNat % 256))) 2

/-- The words assembled for a command are read as that command and its length, whatever words follow them (R82, R83, R85,
R88): no bit of an operand is dropped. -/
def Obligations.AssembledWordsDecodeToTheirCommand : Prop :=
  ∀ (i : Instr) (ws more : List Word), assemble i = some ws → decode (ws ++ more) = .command i ws.length

/-- A command that was read is well-formed, and its encoding is the words it was read from but for the ignored bits: bits
[15:8] of GQUERY's word 1, and the pad byte of a TEXT of odd length (R83, R87). -/
def Obligations.DecodedCommandEncodesToItsWords : Prop :=
  ∀ (ws : List Word) (i : Instr) (k : Nat), decode ws = .command i k →
    i.wf = true ∧ k = i.lengthWords ∧ k ≤ ws.length ∧ (encode i).length = k ∧
    ∀ j, j < k →
      lowByte ((encode i).getD j 0) = lowByte (ws.getD j 0) ∧
      (highByte ((encode i).getD j 0) = highByte (ws.getD j 0) ∨
        (∃ c, i = .gquery c ∧ j = 1) ∨ (∃ s, i = .text s ∧ s.length % 2 = 1 ∧ j = k - 1))

/-- Which header words are illegal, and with which cause: the table of R221, whatever words follow the header. -/
def Obligations.IllegalHeadersAreThoseOfTheCauseTable : Prop :=
  causeCode .reservedHeaderBits = 1 ∧ causeCode .unassignedOpcode = 2 ∧
  ∀ (h : Word) (ws : List Word),
    (decode (h :: ws) = .illegal .reservedHeaderBits h ↔ 0x100 ≤ h.toNat) ∧
    (decode (h :: ws) = .illegal .unassignedOpcode h ↔ h.toNat = 0 ∨ (0x0C ≤ h.toNat ∧ h.toNat ≤ 0xFF)) ∧
    ∀ cause h', decode (h :: ws) = .illegal cause h' → h' = h

/-- The length of every command, and when it is all there: R82's lengths, with R226's wait when a word is missing. -/
def Obligations.CommandLengthsDecideWhetherTheEngineWaits : Prop :=
  ∀ (h : Word) (ws : List Word),
    (h.toNat = 2 ∨ h.toNat = 9 → ∃ i, decode (h :: ws) = .command i 1) ∧
    (h.toNat = 11 → if 1 ≤ ws.length then ∃ i, decode (h :: ws) = .command i 2 else decode (h :: ws) = .incomplete) ∧
    (h.toNat = 1 ∨ h.toNat = 3 ∨ h.toNat = 8 →
      if 2 ≤ ws.length then ∃ i, decode (h :: ws) = .command i 3 else decode (h :: ws) = .incomplete) ∧
    (h.toNat = 5 → if 3 ≤ ws.length then ∃ i, decode (h :: ws) = .command i 4 else decode (h :: ws) = .incomplete) ∧
    (h.toNat = 4 → if 4 ≤ ws.length then ∃ i, decode (h :: ws) = .command i 5 else decode (h :: ws) = .incomplete) ∧
    (h.toNat = 6 ∨ h.toNat = 7 ∨ h.toNat = 10 → ws = [] → decode (h :: ws) = .incomplete) ∧
    (h.toNat = 6 ∨ h.toNat = 7 → ∀ n rest, ws = n :: rest →
      if 2 * n.toNat ≤ rest.length then ∃ i, decode (h :: ws) = .command i (2 + 2 * n.toNat)
      else decode (h :: ws) = .incomplete) ∧
    (h.toNat = 10 → ∀ l rest, ws = l :: rest →
      if (l.toNat + 1) / 2 ≤ rest.length then ∃ i, decode (h :: ws) = .command i (2 + (l.toNat + 1) / 2)
      else decode (h :: ws) = .incomplete)

/-- The ignored bits never change what is read (R83, R87). -/
def Obligations.IgnoredBitsDoNotChangeTheCommand : Prop :=
  (∀ (w w' : Word) (ws : List Word), lowByte w = lowByte w' → decode (0x000B :: w :: ws) = decode (0x000B :: w' :: ws)) ∧
  ∀ (l w w' : Word) (ws more : List Word), l.toNat % 2 = 1 → ws.length = l.toNat / 2 → lowByte w = lowByte w' →
    decode (0x000A :: l :: (ws ++ w :: more)) = decode (0x000A :: l :: (ws ++ w' :: more))

/-- Words that come later change neither a command that is all there nor a header that is illegal (R82, R227, R261). -/
def Obligations.LaterWordsDoNotChangeWhatIsRead : Prop :=
  ∀ ws more : List Word,
    (∀ i k, decode ws = .command i k → decode (ws ++ more) = .command i k) ∧
    (∀ cause h, decode ws = .illegal cause h → decode (ws ++ more) = .illegal cause h)

/-! ## The step -/

/-- A step on a whole command is that command's effect, done with `BUSY = 1`; after it `BUSY` is 0, its words are consumed
and `SP` is past them modulo 2^32 (R30, R31, R86). One command is one step: R64 allows it, and the model takes it (log
entry 6). -/
def Obligations.StepExecutesTheDecodedCommand : Prop :=
  ∀ (s : State) (i : Instr) (k : Nat), s.cfg.wf = true → s.err = false → decode s.queue = .command i k →
    step s = match exec i { s with busy := true } with
      | .next t => .next { t with busy := false, sp := t.sp + BitVec.ofNat 32 k, queue := t.queue.drop k }
      | .fault f => .fault f
      | .refused r => .refused r

/-- A command that completes moves `SP` and the stream by exactly its length (R30, R82), and leaves `BUSY` 0 (R31). -/
def Obligations.CompletedCommandAdvancesByItsLength : Prop :=
  ∀ (s t : State) (i : Instr) (k : Nat), decode s.queue = .command i k → step s = .next t →
    k = i.lengthWords ∧ k ≤ s.queue.length ∧ t.sp = s.sp + BitVec.ofNat 32 k ∧ t.queue = s.queue.drop k ∧
      t.busy = false

/-- What IllegalCommand records, everything else unchanged (R222). That the exception is a next state of `step`, where R17 has
Fault as an outcome of its own, is the model's choice (log entry 4). -/
def Obligations.IllegalHeaderRecordsTheFault : Prop :=
  ∀ (s : State) (cause : IllegalCause) (h : Word), s.cfg.wf = true → s.err = false →
    decode s.queue = .illegal cause h →
    step s = .next { s with
      err := true
      errCause := match cause with
        | .reservedHeaderBits => 1
        | .unassignedOpcode => 2
      errWord := h
      errPos := s.sp }

/-- While `ERR = 1` nothing executes, whatever words the host sends, so no exception can occur (R223, R225). The name of the
outcome, `halted`, is the model's own (log entry 4). -/
def Obligations.HaltedEngineTakesNoStep : Prop :=
  ∀ (s : State) (ws : List Word), s.cfg.wf = true → s.err = true → step (hostSend ws s) = .fault .halted

/-- An idle engine and an incomplete command have no step (R226, R236). The names of the two outcomes are the model's own
(log entry 4). -/
def Obligations.IncompleteCommandHasNoStep : Prop :=
  ∀ s : State, s.cfg.wf = true → s.err = false →
    (s.queue = [] → step s = .fault .noWordQueued) ∧
    (decode s.queue = .incomplete → step s = .fault .incompleteCommand)

/-- Exactly the ill-formed configurations are refused: the ranges of R6 and the conditions of R10 and R163. That a step is
what refuses them is the model's choice (log entry 1). -/
def Obligations.ExactlyIllFormedConfigurationsAreRefused : Prop :=
  ∀ s : State, step s = .refused .illFormedConfiguration ↔
    ¬((1 ≤ s.cfg.width ∧ s.cfg.width ≤ 32767) ∧ (8 ≤ s.cfg.height ∧ s.cfg.height ≤ 32760) ∧ s.cfg.height % 8 = 0 ∧
      s.cfg.glyphs.bitmapData.length ≤ 2 ^ 32 ∧
      s.cfg.glyphs.firstChar.toNat ≤ s.cfg.glyphs.lastChar.toNat ∧
      (1 ≤ s.cfg.glyphs.glyphHeightPages.toNat ∧ s.cfg.glyphs.glyphHeightPages.toNat ≤ s.cfg.height / 8) ∧
      (∀ widths offsets space, s.cfg.glyphs.font = .variable widths offsets space →
        widths.length = s.cfg.glyphs.lastChar.toNat - s.cfg.glyphs.firstChar.toNat + 1 ∧
        offsets.length = s.cfg.glyphs.lastChar.toNat - s.cfg.glyphs.firstChar.toNat + 1) ∧
      (∀ c : Byte, s.cfg.glyphs.firstChar.toNat ≤ c.toNat → c.toNat ≤ s.cfg.glyphs.lastChar.toNat →
        s.cfg.glyphByteOffset c + (s.cfg.glyphWidth c).toNat * s.cfg.glyphs.glyphHeightPages.toNat ≤
          s.cfg.glyphs.bitmapData.length))

/-- A whole command is executed: a step exists for it in every state between commands that is not faulted (R258: an engine
with a complete command available executes it). -/
def Obligations.AvailableCommandIsExecuted : Prop :=
  ∀ (s : State) (i : Instr) (k : Nat), BetweenCommands s → s.err = false → decode s.queue = .command i k →
    ∃ t, step s = .next t

/-- Words the host sends later do not change a step (R64, R261). -/
def Obligations.WordsSentLaterDoNotChangeAStep : Prop :=
  ∀ (s t : State) (ws : List Word), step s = .next t → step (hostSend ws s) = .next (hostSend ws t)

/-- Every step conserves the stream: what is left of it is a suffix, and `SP` moves by the words consumed (R30, R80). -/
def Obligations.StepConservesTheStream : Prop :=
  ∀ s t : State, step s = .next t →
    t.queue <:+ s.queue ∧
    t.sp + BitVec.ofNat 32 t.queue.length = s.sp + BitVec.ofNat 32 s.queue.length

/-! ## Framebuffer commands -/

/-- ADDR's answer, with nothing else written (R101); in a geometry of R6 the index fits its register. -/
def Obligations.AddrAnswersTheAddressingLaw : Prop :=
  ∀ (s : State) (x y : Int),
    (0 ≤ x ∧ x < s.cfg.width ∧ 0 ≤ y ∧ y < s.cfg.height →
      exec (.addr x y) s = .next { s with
        avalid := true
        aidx := BitVec.ofNat 32 (1 + x.toNat + y.toNat / 8 * s.cfg.width)
        abit := BitVec.ofNat 3 (y.toNat % 8) } ∧
      (s.cfg.wf = true → 1 ≤ 1 + x.toNat + y.toNat / 8 * s.cfg.width ∧
        1 + x.toNat + y.toNat / 8 * s.cfg.width ≤ s.cfg.fbLen - 1 ∧ s.cfg.fbLen - 1 < 2 ^ 28)) ∧
    (¬(0 ≤ x ∧ x < s.cfg.width ∧ 0 ≤ y ∧ y < s.cfg.height) →
      exec (.addr x y) s = .next { s with avalid := false, aidx := 0, abit := 0 })

/-- The addressing law is a bijection from the pixels onto the bits of bytes `1..N-1` (R58). -/
def Obligations.AddressingLawIsABijection : Prop :=
  ∀ c : Config, c.wf = true →
    (∀ x y : Int, c.InBounds x y → 1 ≤ c.byteIndex x y ∧ c.byteIndex x y ≤ c.fbLen - 1 ∧ bitOffset y < 8) ∧
    (∀ x y u v : Int, c.InBounds x y → c.InBounds u v → c.byteIndex x y = c.byteIndex u v → bitOffset y = bitOffset v →
      x = u ∧ y = v) ∧
    (∀ i b : Nat, 1 ≤ i → i ≤ c.fbLen - 1 → b < 8 →
      ∃ x y : Int, c.InBounds x y ∧ c.byteIndex x y = i ∧ bitOffset y = b)

/-- CLEAR completes, zeroes every pixel byte, and byte 0 under `CLEAR_HDR = ZERO` only; nothing else is written (R102). -/
def Obligations.ClearZeroesThePixelBytes : Prop :=
  ∀ s : State, ∃ t, exec .clear s = .next t ∧ t = { s with fb := t.fb } ∧
    (∀ i, 1 ≤ i → i ≤ s.cfg.fbLen - 1 → t.fbByte i = 0) ∧
    (s.cfg.clearHdr = .zero → t.fbByte 0 = 0) ∧
    (s.cfg.clearHdr = .keep → t.fbByte 0 = s.fbByte 0) ∧
    ∀ i, s.cfg.fbLen ≤ i → t.fbByte i = s.fbByte i

/-- PSET completes: in bounds it sets the one bit of the addressing law and keeps the other seven and every other byte; out
of bounds it changes nothing (R100, R103). -/
def Obligations.PsetSetsOneBit : Prop :=
  ∀ (s : State) (x y : Int), s.cfg.wf = true →
    (s.cfg.InBounds x y → ∃ t, exec (.pset x y) s = .next t ∧ t = { s with fb := t.fb } ∧
      (∀ b, b < 8 → (t.fbByte (1 + x.toNat + y.toNat / 8 * s.cfg.width)).getLsbD b =
        ((s.fbByte (1 + x.toNat + y.toNat / 8 * s.cfg.width)).getLsbD b || decide (b = y.toNat % 8))) ∧
      ∀ i, i ≠ 1 + x.toNat + y.toNat / 8 * s.cfg.width → t.fbByte i = s.fbByte i) ∧
    (¬s.cfg.InBounds x y → exec (.pset x y) s = .next s)

/-- After PSET the pixel it names reads 1, after CLEAR every pixel reads 0 (R105, derived there). -/
def Obligations.PsetLightsAndClearDarkens : Prop :=
  ∀ (s t : State) (x y : Int), s.cfg.wf = true → s.cfg.InBounds x y →
    (exec (.pset x y) s = .next t → t.pixel x y = true) ∧ (exec .clear s = .next t → t.pixel x y = false)

/-- Two PSETs commute, and a second one of the same pixel changes nothing (R104, derived there). -/
def Obligations.PsetsCommuteAndAreIdempotent : Prop :=
  ∀ (s : State) (x y u v : Int), s.cfg.wf = true → s.fb.wf →
    ∃ t t1 t2, exec (.pset x y) s = .next t1 ∧ exec (.pset u v) s = .next t2 ∧
      exec (.pset u v) t1 = .next t ∧ exec (.pset x y) t2 = .next t ∧ exec (.pset x y) t1 = .next t1

/-! ## Rasterizer commands -/

/-- LINE completes and ORs the points of DrawLine into the framebuffer: a bit is set after it just when it was set before or
is a point's; every byte that is no point's, byte 0 and the bytes at `N` and above among them, is unchanged, and so is
all else (R59, R123). -/
def Obligations.LineOrsItsPoints : Prop :=
  ∀ (s : State) (x1 y1 x2 y2 : Int), s.cfg.wf = true → ∃ t, exec (.line x1 y1 x2 y2) s = .next t ∧
    t = { s with fb := t.fb } ∧
    (∀ x y, s.cfg.InBounds x y →
      (t.pixel x y = true ↔ s.pixel x y = true ∨ (⟨x, y⟩ : Point) ∈ linePoints s.cfg x1 y1 x2 y2)) ∧
    ∀ i, (∀ p ∈ linePoints s.cfg x1 y1 x2 y2, s.cfg.InBounds p.x p.y → s.cfg.byteIndex p.x p.y ≠ i) →
      t.fbByte i = s.fbByte i

/-- LINE follows the recurrence of R122 from the clamped endpoints in the order of R121, to the end: there are a number `n`
of rounds and values `x`, `y`, `err` of each round, as the pseudocode has them, and a pixel is lit after LINE just when it
was lit before or is the pixel of a round. -/
def Obligations.LineFollowsTheErrorAccumulator : Prop :=
  ∀ (s : State) (x1 y1 x2 y2 : Int), s.cfg.wf = true →
    ∃ (p q : Point) (n : Nat) (x y err : Nat → Int) (t : State),
      (let a : Point := ⟨max 0 (min x1 (s.cfg.width - 1)), max 0 (min y1 (s.cfg.height - 1))⟩
       let b : Point := ⟨max 0 (min x2 (s.cfg.width - 1)), max 0 (min y2 (s.cfg.height - 1))⟩
       (b.x < a.x ∨ (b.x = a.x ∧ b.y < a.y) → p = b ∧ q = a) ∧
       (¬(b.x < a.x ∨ (b.x = a.x ∧ b.y < a.y)) → p = a ∧ q = b)) ∧
      x 0 = p.x ∧ y 0 = p.y ∧ err 0 = |q.x - p.x| + -|q.y - p.y| ∧
      (∀ k, k < n → ¬(x k = q.x ∧ y k = q.y) ∧
        (2 * err k ≥ -|q.y - p.y| → x (k + 1) = x k + (if p.x < q.x then 1 else -1)) ∧
        (¬2 * err k ≥ -|q.y - p.y| → x (k + 1) = x k) ∧
        (2 * err k ≤ |q.x - p.x| → y (k + 1) = y k + (if p.y < q.y then 1 else -1)) ∧
        (¬2 * err k ≤ |q.x - p.x| → y (k + 1) = y k) ∧
        err (k + 1) = err k + (if 2 * err k ≥ -|q.y - p.y| then -|q.y - p.y| else 0) +
          (if 2 * err k ≤ |q.x - p.x| then |q.x - p.x| else 0)) ∧
      x n = q.x ∧ y n = q.y ∧
      exec (.line x1 y1 x2 y2) s = .next t ∧ t = { s with fb := t.fb } ∧
      ∀ u v, s.cfg.InBounds u v → (t.pixel u v = true ↔ s.pixel u v = true ∨ ∃ k, k ≤ n ∧ x k = u ∧ y k = v)

/-- Swapping the endpoints of LINE gives the same next state, in every state (R121, R123, R124 (4)). -/
def Obligations.LineIsSymmetricInDirection : Prop :=
  ∀ (s : State) (x1 y1 x2 y2 : Int), exec (.line x1 y1 x2 y2) s = exec (.line x2 y2 x1 y1) s

/-- DrawLine calls SetPixel on exactly `max(dx, ady) + 1` distinct points, from one canonical endpoint to the other, each one
a king's move from the one before it, all in bounds (R124 (1) to (3), derived there). -/
def Obligations.LinePointsFormOneShortPath : Prop :=
  ∀ (c : Config) (x1 y1 x2 y2 : Int), c.wf = true →
    ∀ p q : Point, canon (c.clampPt x1 y1) (c.clampPt x2 y2) = (p, q) →
      (linePoints c x1 y1 x2 y2).length = (max |q.x - p.x| |q.y - p.y|).toNat + 1 ∧
      (linePoints c x1 y1 x2 y2).Nodup ∧
      (linePoints c x1 y1 x2 y2).head? = some p ∧
      (linePoints c x1 y1 x2 y2).getLast? = some q ∧
      (linePoints c x1 y1 x2 y2).IsChain (fun a b => a ≠ b ∧ |b.x - a.x| ≤ 1 ∧ |b.y - a.y| ≤ 1) ∧
      ∀ a ∈ linePoints c x1 y1 x2 y2, c.InBounds a.x a.y

/-- A line from a point to itself is one PSET, of the point clamped to the canvas (R120, R123). -/
def Obligations.DegenerateLineIsOneClampedPixel : Prop :=
  ∀ (s : State) (x y : Int), s.cfg.wf = true → exec (.line x y x y) s =
    exec (.pset (max 0 (min x (s.cfg.width - 1))) (max 0 (min y (s.cfg.height - 1)))) s

/-- CIRCLE completes and ORs the points of DrawCircle that are on the canvas into the framebuffer; every other byte and all
else is unchanged (R59, R126). -/
def Obligations.CircleOrsItsPoints : Prop :=
  ∀ (s : State) (cx cy r : Int), s.cfg.wf = true → ∃ t, exec (.circle cx cy r) s = .next t ∧
    t = { s with fb := t.fb } ∧
    (∀ x y, s.cfg.InBounds x y →
      (t.pixel x y = true ↔ s.pixel x y = true ∨ (⟨x, y⟩ : Point) ∈ circlePoints cx cy r)) ∧
    ∀ i, (∀ p ∈ circlePoints cx cy r, s.cfg.InBounds p.x p.y → s.cfg.byteIndex p.x p.y ≠ i) →
      t.fbByte i = s.fbByte i

/-- CIRCLE follows the recurrence of R125 to the end, for a radius taken as 0 when it is negative: there are a number `n` of
rounds, at least one and at most `2r + 1` (R127 (1), derived there), and values `x`, `y`, `err` before each, as the
pseudocode has them, and a pixel is lit after CIRCLE just when it was lit before or is one of the four pixels of a
round. -/
def Obligations.CircleFollowsTheQuadrantRecurrence : Prop :=
  ∀ (s : State) (cx cy r0 : Int), s.cfg.wf = true →
    ∃ (r : Int) (n : Nat) (x y err : Nat → Int) (t : State),
      r = (if r0 < 0 then 0 else r0) ∧ 1 ≤ n ∧ (n : Int) ≤ 2 * r + 1 ∧
      x 0 = -r ∧ y 0 = 0 ∧ err 0 = 2 - 2 * r ∧
      (∀ k, k < n →
        ∃ e1 : Int,
          (err k ≤ y k → y (k + 1) = y k + 1 ∧ e1 = err k + 2 * y (k + 1) + 1) ∧
          (¬err k ≤ y k → y (k + 1) = y k ∧ e1 = err k) ∧
          (err k > x k ∨ e1 > y (k + 1) → x (k + 1) = x k + 1 ∧ err (k + 1) = e1 + 2 * x (k + 1) + 1) ∧
          (¬(err k > x k ∨ e1 > y (k + 1)) → x (k + 1) = x k ∧ err (k + 1) = e1) ∧
          (x (k + 1) ≥ 0 ↔ k + 1 = n)) ∧
      exec (.circle cx cy r0) s = .next t ∧ t = { s with fb := t.fb } ∧
      ∀ u v, s.cfg.InBounds u v → (t.pixel u v = true ↔ s.pixel u v = true ∨ ∃ k, k < n ∧
        ((u = cx - x k ∧ v = cy + y k) ∨ (u = cx - y k ∧ v = cy - x k) ∨
         (u = cx + x k ∧ v = cy - y k) ∨ (u = cx + y k ∧ v = cy + x k)))

/-- A circle whose radius is not positive is its centre, not clamped: the same next state as PSET of the centre, in every
state (R126). -/
def Obligations.NonPositiveRadiusIsTheCentre : Prop :=
  ∀ (s : State) (cx cy r : Int), r ≤ 0 → exec (.circle cx cy r) s = exec (.pset cx cy) s

/-- The points of a circle are carried to points of it by a quarter turn about the centre: four points a round, each a
quarter turn of the one before (R125, R131). -/
def Obligations.CirclePointsAreClosedUnderQuarterTurns : Prop :=
  ∀ cx cy r dx dy : Int, (⟨cx + dx, cy + dy⟩ : Point) ∈ circlePoints cx cy r →
    (⟨cx - dy, cy + dx⟩ : Point) ∈ circlePoints cx cy r

/-- Every point of a circle of radius at least 0 is within its bounding square, of side `2r + 1` about the centre, and the four
points at distance `r` on the axes are points of it (R125, R127: `y = r` at the loop's end). A point may lie farther
from the centre than `r`: (12, 11) is one of `CIRCLE 10, 10, 2`. -/
def Obligations.CircleTouchesAndStaysWithinItsBoundingSquare : Prop :=
  ∀ cx cy r : Int, 0 ≤ r →
    (∀ p ∈ circlePoints cx cy r, |p.x - cx| ≤ r ∧ |p.y - cy| ≤ r) ∧
    (⟨cx + r, cy⟩ : Point) ∈ circlePoints cx cy r ∧ (⟨cx, cy + r⟩ : Point) ∈ circlePoints cx cy r ∧
    (⟨cx - r, cy⟩ : Point) ∈ circlePoints cx cy r ∧ (⟨cx, cy - r⟩ : Point) ∈ circlePoints cx cy r

/-- The points of a circle are symmetric under the four sign reflections about the centre, for every radius an operand can
carry (R127 (2), derived there; the source's property E4). -/
def Obligations.CirclePointsAreClosedUnderReflection : Prop :=
  ∀ cx cy r dx dy : Int, isS16 r = true → (⟨cx + dx, cy + dy⟩ : Point) ∈ circlePoints cx cy r →
    (⟨cx - dx, cy + dy⟩ : Point) ∈ circlePoints cx cy r ∧ (⟨cx + dx, cy - dy⟩ : Point) ∈ circlePoints cx cy r

/-- POLYGON completes and ORs the points of its edges into the framebuffer: of the edge from vertex `i` to vertex `i + 1`
for every `i`, and, with two vertices or more, of the edge from the last vertex to the first; with fewer it changes
nothing. Every other byte and all else is unchanged (R128). -/
def Obligations.PolygonOrsEveryEdge : Prop :=
  ∀ (s : State) (vs : List Point), s.cfg.wf = true →
    (vs.length ≤ 1 → exec (.polygon vs) s = .next s) ∧
    ∃ t, exec (.polygon vs) s = .next t ∧ t = { s with fb := t.fb } ∧
      (∀ x y, s.cfg.InBounds x y → (t.pixel x y = true ↔
        s.pixel x y = true ∨ OnOpenEdge s.cfg vs ⟨x, y⟩ ∨ OnClosingEdge s.cfg vs ⟨x, y⟩)) ∧
      ∀ i, (∀ p, OnOpenEdge s.cfg vs p ∨ OnClosingEdge s.cfg vs p → s.cfg.InBounds p.x p.y →
        s.cfg.byteIndex p.x p.y ≠ i) → t.fbByte i = s.fbByte i

/-- POLYLINE completes and ORs the points of its edges, from vertex `i` to vertex `i + 1` for every `i`, into the
framebuffer; with fewer than two vertices it changes nothing. Every other byte and all else is unchanged (R129). -/
def Obligations.PolylineOrsEveryEdgeButTheClosingOne : Prop :=
  ∀ (s : State) (vs : List Point), s.cfg.wf = true →
    (vs.length ≤ 1 → exec (.polyline vs) s = .next s) ∧
    ∃ t, exec (.polyline vs) s = .next t ∧ t = { s with fb := t.fb } ∧
      (∀ x y, s.cfg.InBounds x y →
        (t.pixel x y = true ↔ s.pixel x y = true ∨ OnOpenEdge s.cfg vs ⟨x, y⟩)) ∧
      ∀ i, (∀ p, OnOpenEdge s.cfg vs p → s.cfg.InBounds p.x p.y → s.cfg.byteIndex p.x p.y ≠ i) →
        t.fbByte i = s.fbByte i

/-- POLYGON of two vertices or more is POLYLINE and then the LINE from the last vertex to the first; a POLYLINE of two
vertices is a LINE (R89, R128, R129). -/
def Obligations.PolygonIsPolylineAndTheClosingLine : Prop :=
  (∀ (s t : State) (v0 v1 : Point) (vs : List Point), exec (.polyline (v0 :: v1 :: vs)) s = .next t →
    exec (.polygon (v0 :: v1 :: vs)) s =
      exec (.line ((v1 :: vs).getLastD v1).x ((v1 :: vs).getLastD v1).y v0.x v0.y) t) ∧
  ∀ (s : State) (a b : Point), exec (.polyline [a, b]) s = exec (.line a.x a.y b.x b.y) s

/-! ## Glyph table -/

/-- GQUERY's answer, from the table's own fields, nothing else written (R164 to R166, R169). -/
def Obligations.GqueryAnswersTheTable : Prop :=
  ∀ (s : State) (c : Byte), s.cfg.wf = true →
    (s.cfg.glyphs.firstChar.toNat ≤ c.toNat ∧ c.toNat ≤ s.cfg.glyphs.lastChar.toNat →
      (∀ w, s.cfg.glyphs.font = .fixed w → exec (.gquery c) s = .next { s with
        gprint := true
        gwidth := w
        goff := BitVec.ofNat 32 ((c.toNat - s.cfg.glyphs.firstChar.toNat) * w.toNat *
          s.cfg.glyphs.glyphHeightPages.toNat) }) ∧
      (∀ ws os sp, s.cfg.glyphs.font = .variable ws os sp →
        ∃ w o, ws[c.toNat - s.cfg.glyphs.firstChar.toNat]? = some w ∧
          os[c.toNat - s.cfg.glyphs.firstChar.toNat]? = some o ∧
          exec (.gquery c) s = .next { s with gprint := true, gwidth := w, goff := o })) ∧
    (¬(s.cfg.glyphs.firstChar.toNat ≤ c.toNat ∧ c.toNat ≤ s.cfg.glyphs.lastChar.toNat) →
      exec (.gquery c) s = .next { s with gprint := false, gwidth := 0, goff := 0 })

/-! ## Text engine -/

/-- SETCUR completes and clamps the cursor; nothing else is written (R180, R181). -/
def Obligations.SetcurClampsTheCursor : Prop :=
  ∀ (s : State) (col row : Int), s.cfg.wf = true → ∃ cur : Cursor,
    exec (.setcur col row) s = .next { s with cursor := cur } ∧
    (cur.col.toNat : Int) = max 0 (min col (s.cfg.width - 1)) ∧
    (cur.row.toNat : Int) = max 0 (min row (s.cfg.pages - s.cfg.glyphs.glyphHeightPages.toNat))

/-- NEXTLINE advances by `G` pages to column 0 with `NOLINE` 0, or, past the last line, sets `NOLINE` and leaves the cursor;
nothing else is written (R182, R183). -/
def Obligations.NextlineAdvancesOrSignals : Prop :=
  ∀ s : State, s.cfg.wf = true →
    (s.cfg.pages - s.cfg.glyphPages < s.cursor.row.toNat + s.cfg.glyphPages →
      exec .nextline s = .next { s with noline := true }) ∧
    (s.cursor.row.toNat + s.cfg.glyphPages ≤ s.cfg.pages - s.cfg.glyphPages → ∃ cur : Cursor,
      exec .nextline s = .next { s with noline := false, cursor := cur } ∧
      cur.col.toNat = 0 ∧ cur.row.toNat = s.cursor.row.toNat + s.cfg.glyphPages)

/-- TEXT completes from every state with the invariant: it writes the cursor, which stays in range, and the bytes of its
blits; byte 0, the bytes at `N` and above, every other byte and all else are unchanged (R25, R184, R185, R190). -/
def Obligations.TextWritesOnlyCursorAndBlits : Prop :=
  ∀ (s : State) (str : List Byte), StateInv s → ∃ t, exec (.text str) s = .next t ∧
    t = { s with fb := t.fb, cursor := t.cursor } ∧
    t.cursor.col.toNat < s.cfg.width ∧ t.cursor.row.toNat + s.cfg.glyphPages ≤ s.cfg.pages ∧
    (∀ i, (∀ w ∈ (textRun s.cfg str s.cursor).2, w.index ≠ i) → t.fbByte i = s.fbByte i) ∧
    t.fbByte 0 = s.fbByte 0 ∧ ∀ i, s.cfg.fbLen ≤ i → t.fbByte i = s.fbByte i

/-- TEXT of no character changes nothing (R185); a space moves the cursor by the space width, clamped, and draws nothing
(R186); a character that is neither a space nor printable is skipped (R188). Then the rest of the string follows. -/
def Obligations.TextSpacesAndSkippedCharacters : Prop :=
  ∀ (s : State) (c : Byte) (rest : List Byte), StateInv s →
    exec (.text []) s = .next s ∧
    (c = 0x20 → ∃ cur : Cursor,
      (∀ w, s.cfg.glyphs.font = .fixed w →
        cur.col.toNat = min (s.cursor.col.toNat + w.toNat) (s.cfg.width - 1)) ∧
      (∀ ws os sp, s.cfg.glyphs.font = .variable ws os sp →
        cur.col.toNat = min (s.cursor.col.toNat + sp.toNat) (s.cfg.width - 1)) ∧
      cur.row = s.cursor.row ∧
      exec (.text (c :: rest)) s = exec (.text rest) { s with cursor := cur }) ∧
    (c ≠ 0x20 → ¬(s.cfg.glyphs.firstChar.toNat ≤ c.toNat ∧ c.toNat ≤ s.cfg.glyphs.lastChar.toNat) →
      exec (.text (c :: rest)) s = exec (.text rest) s)

/-- TEXT stops where a glyph needs a new line and none is left: nothing of it is drawn, the cursor does not move, and the
rest of the string is dropped (R182, R187). -/
def Obligations.TextStopsWhenNoLineIsLeft : Prop :=
  ∀ (s : State) (c : Byte) (rest : List Byte), c ≠ 0x20 → s.cfg.IsPrintable c →
    s.cfg.width ≤ s.cursor.col.toNat + (s.cfg.glyphWidth c).toNat →
    s.cfg.pages < s.cursor.row.toNat + 2 * s.cfg.glyphPages →
    exec (.text (c :: rest)) s = .next s

/-- One printable character of TEXT that finds room: at the cursor, or at column 0 of the next text line when it would reach
the right edge, it overwrites the bytes of its glyph that are on the canvas with the glyph's ROM bytes and keeps every
other byte; the cursor advances by the width, and by `SEP` too unless a space follows, clamped; then the rest of the
string follows (R184, R187, R191). -/
def Obligations.TextGlyphIsBlittedAndTheRestFollows : Prop :=
  ∀ (s : State) (c : Byte) (rest : List Byte), StateInv s → c ≠ 0x20 → s.cfg.IsPrintable c →
    ∀ col row : Nat,
      (s.cursor.col.toNat + (s.cfg.glyphWidth c).toNat < s.cfg.width →
        col = s.cursor.col.toNat ∧ row = s.cursor.row.toNat) →
      (s.cfg.width ≤ s.cursor.col.toNat + (s.cfg.glyphWidth c).toNat →
        col = 0 ∧ row = s.cursor.row.toNat + s.cfg.glyphPages ∧
        s.cursor.row.toNat + 2 * s.cfg.glyphPages ≤ s.cfg.pages) →
      ∃ t : State, exec (.text (c :: rest)) s = exec (.text rest) t ∧
        t = { s with fb := t.fb, cursor := t.cursor } ∧
        t.cursor.row.toNat = row ∧
        t.cursor.col.toNat = min (s.cfg.width - 1)
          (col + (s.cfg.glyphWidth c).toNat + if rest.head? = some 0x20 then 0 else s.cfg.separation) ∧
        (∀ p i, p < s.cfg.glyphPages → i < (s.cfg.glyphWidth c).toNat → col + i < s.cfg.width →
          s.cfg.glyphs.bitmapData[s.cfg.glyphByteOffset c + p * (s.cfg.glyphWidth c).toNat + i]? =
            some (t.fbByte (1 + (col + i) + (row + p) * s.cfg.width))) ∧
        ∀ j, (∀ p i, p < s.cfg.glyphPages → i < (s.cfg.glyphWidth c).toNat → col + i < s.cfg.width →
          j ≠ 1 + (col + i) + (row + p) * s.cfg.width) → t.fbByte j = s.fbByte j

/-- "AB" at the origin with a fixed font of width 5 and separation 1: 'A' in columns 0 to 4, 'B' in columns 6 to 10, column 5
not written (R192, derived there). -/
def Obligations.TextABLeavesAOnePixelGap : Prop :=
  ∀ s : State, StateInv s → s.cfg.glyphs.font = .fixed 5 → s.cfg.separation = 1 → 12 ≤ s.cfg.width →
    s.cursor = ⟨0, 0⟩ → s.cfg.IsPrintable 0x41 → s.cfg.IsPrintable 0x42 →
    ∃ t, exec (.text [0x41, 0x42]) s = .next t ∧
      ∀ p, p < s.cfg.glyphPages →
        (∀ i, i < 5 → t.fbByte (1 + i + p * s.cfg.width) = s.cfg.glyphByte 0x41 p i) ∧
        (∀ i, i < 5 → t.fbByte (1 + (6 + i) + p * s.cfg.width) = s.cfg.glyphByte 0x42 p i) ∧
        t.fbByte (1 + 5 + p * s.cfg.width) = s.fbByte (1 + 5 + p * s.cfg.width)

/-! ## The whole machine -/

/-- No command raises an exception or stops: each completes from every state with the invariant, and leaves `ERR` and the fault
record as they were (R71, R220, R228). -/
def Obligations.EveryCommandCompletes : Prop :=
  ∀ (s : State) (i : Instr), StateInv s → ∃ t, exec i s = .next t ∧
    t.err = s.err ∧ t.errCause = s.errCause ∧ t.errWord = s.errWord ∧ t.errPos = s.errPos

/-- What each command may write: the cursor only SETCUR, NEXTLINE and TEXT (R25), `NOLINE` only NEXTLINE (R26), ADDR's answer
only ADDR (R28, R32), GQUERY's only GQUERY (R29, R33), the framebuffer only the drawing commands (R22); and none the fault
record (R27, R34), the configuration (R170) or the stream (R68). That a command's effect leaves `SP` and `BUSY` to the
step around it (R30, R31, R86) is log entry 6, and `resetEpoch` is the model's own field (log entry 3). -/
def Obligations.CommandsWriteOnlyTheirOwnState : Prop :=
  ∀ (i : Instr) (s t : State), exec i s = .next t →
    (t.cfg = s.cfg ∧ t.err = s.err ∧ t.errCause = s.errCause ∧ t.errWord = s.errWord ∧ t.errPos = s.errPos ∧
      t.sp = s.sp ∧ t.queue = s.queue ∧ t.busy = s.busy ∧ t.resetEpoch = s.resetEpoch) ∧
    (t.cursor = s.cursor ∨ (∃ c r, i = .setcur c r) ∨ i = .nextline ∨ ∃ str, i = .text str) ∧
    (t.noline = s.noline ∨ i = .nextline) ∧
    ((t.avalid = s.avalid ∧ t.aidx = s.aidx ∧ t.abit = s.abit) ∨ ∃ x y, i = .addr x y) ∧
    ((t.gprint = s.gprint ∧ t.gwidth = s.gwidth ∧ t.goff = s.goff) ∨ ∃ c, i = .gquery c) ∧
    (t.fb = s.fb ∨ i = .clear ∨ (∃ x y, i = .pset x y) ∨ (∃ x1 y1 x2 y2, i = .line x1 y1 x2 y2) ∨
      (∃ cx cy r, i = .circle cx cy r) ∨ (∃ vs, i = .polygon vs) ∨ (∃ vs, i = .polyline vs) ∨ ∃ str, i = .text str)

/-- The only command that writes byte 0 is CLEAR, and only under `CLEAR_HDR = ZERO` (R52). -/
def Obligations.OnlyClearWritesTheReservedByte : Prop :=
  ∀ (i : Instr) (s t : State), exec i s = .next t → ¬(i = .clear ∧ s.cfg.clearHdr = .zero) → t.fbByte 0 = s.fbByte 0

/-- No command writes a byte at `N` or above (R106, R190, derived there), and none asks for such a write: from a state with the
invariant every write of SetPixel, on any points, and of TEXT, on any string, goes to a byte of `1..N-1`. Without the second
part the first would hold by log entry 5 alone, the check of every index before any write. -/
def Obligations.NoCommandWritesPastTheFramebuffer : Prop :=
  (∀ (i : Instr) (s t : State) (a : Nat), exec i s = .next t → s.cfg.fbLen ≤ a → t.fb.read a = s.fb.read a) ∧
  ∀ s : State, StateInv s →
    (∀ (ps : List Point), ∀ w ∈ pixelWrites s.cfg ps, 1 ≤ w.index ∧ w.index < s.cfg.fbLen) ∧
    ∀ (str : List Byte), ∀ w ∈ (textRun s.cfg str s.cursor).2, 1 ≤ w.index ∧ w.index < s.cfg.fbLen

/-- No command reads a pixel back into a register: from two states that differ in the framebuffer only, a command leaves two
states that differ in the framebuffer only (R22: the framebuffer's readers are the host and the OR-write). -/
def Obligations.PixelsNeverReachARegister : Prop :=
  ∀ (i : Instr) (s t : State) (m : Memory) (e : Nat), exec i s = .next t →
    ∃ m', exec i { s with fb := m, resetEpoch := e } = .next { t with fb := m', resetEpoch := e }

/-- The invariant, with `BUSY = 0`, is kept by every step, from every state that has it (R25, R31, R34, R58, R106, R190,
R255). The framebuffer's canonical form, a part of it, is the model's own (log entry 3). -/
def Obligations.StepKeepsTheInvariant : Prop :=
  ∀ s t : State, BetweenCommands s → step s = .next t → BetweenCommands t

/-- After reset the invariant holds, for every well-formed configuration (R38), and for the configuration of
`State.reset`, which is the model's choice (log entry 2). -/
def Obligations.ResetHasTheInvariant : Prop :=
  (∀ (c : Config) (epoch : Nat), c.wf = true → BetweenCommands (State.resetOf c epoch)) ∧ BetweenCommands State.reset

/-- Every state an instance reaches, whatever words the host sends and however often it resets, has the invariant and the
configuration it began with (R25, R255): what `StepKeepsTheInvariant` and `HostActionsKeepTheInvariant` give over runs. -/
def Obligations.EveryReachableStateHasTheInvariant : Prop :=
  ∀ (c : Config) (s : State), c.wf = true → Reachable c s → BetweenCommands s ∧ s.cfg = c

/-- A run on a finite stream sent after reset ends within one step a word, with the first `m` words consumed and `SP` at `m`
modulo 2^32 (R30), in exactly one of three ways: completed, with every word consumed; faulted, with `SP = ERR_POS` at the
offending header; or stuck inside a command (R260). The words from `SP` on are not executed: the run on the first `m` words
alone completes, and leaves the same state but for the words queued and the fault record. One step a word rests on log entry
6, and that the faulted state is reached by a step on log entry 4. -/
def Obligations.RunsEndCompletedFaultedOrStuck : Prop :=
  ∀ (c : Config) (epoch : Nat) (ws : List Word), c.wf = true →
    ∃ (n m : Nat) (t : State), n ≤ ws.length ∧ m ≤ ws.length ∧
      Host.Core.run Sys2Proof.core n (hostSend ws (State.resetOf c epoch)) = .next t ∧
      (∀ u, step t ≠ .next u) ∧ t.sp = BitVec.ofNat 32 m ∧ t.queue = ws.drop m ∧
      ((Completed t ∧ m = ws.length ∧ ¬Faulted t ∧ ¬Stuck t) ∨
        (Faulted t ∧ m < ws.length ∧ ¬Completed t ∧ ¬Stuck t) ∨
        (Stuck t ∧ m < ws.length ∧ ¬Completed t ∧ ¬Faulted t)) ∧
      ∃ (n' : Nat) (u : State), n' ≤ n ∧
        Host.Core.run Sys2Proof.core n' (hostSend (ws.take m) (State.resetOf c epoch)) = .next u ∧ Completed u ∧
        t = { u with
          queue := t.queue
          err := t.err
          errCause := t.errCause
          errWord := t.errWord
          errPos := t.errPos }

/-! ## The host's side -/

/-- The host register map, bit by bit (R36): STATUS always, the others in a read that is no race (R224, R256). -/
def Obligations.HostRegistersFollowTheMap : Prop :=
  ∀ (k : Nat) (s : State),
    ((hostReadRegister k s 0).getLsbD 0 = s.busy ∧ (hostReadRegister k s 0).getLsbD 1 = s.noline ∧
      (hostReadRegister k s 0).getLsbD 2 = s.err ∧ (hostReadRegister k s 0).getLsbD 3 = s.avalid ∧
      (hostReadRegister k s 0).getLsbD 4 = s.gprint ∧ (hostReadRegister k s 0).extractLsb' 5 2 = s.errCause ∧
      (hostReadRegister k s 0).extractLsb' 7 9 = 0) ∧
    (s.busy = false ∨ s.err = true →
      hostReadRegister k s 1 = s.cursor.col ∧ hostReadRegister k s 2 = s.cursor.row ∧
      hostReadRegister k s 4 ++ hostReadRegister k s 3 = s.aidx ∧
      hostReadRegister k s 5 = s.abit.zeroExtend 16 ∧ hostReadRegister k s 6 = s.gwidth.zeroExtend 16 ∧
      hostReadRegister k s 8 ++ hostReadRegister k s 7 = s.goff ∧ hostReadRegister k s 9 = s.errWord ∧
      hostReadRegister k s 11 ++ hostReadRegister k s 10 = s.errPos ∧
      hostReadRegister k s 12 = 0 ∧ hostReadRegister k s 13 = 0 ∧ hostReadRegister k s 14 = 0 ∧
      hostReadRegister k s 15 = 0)

/-- When a host read has one answer: STATUS always, any register and any existing framebuffer byte while no command executes
or the engine is halted (R66, R224, R256). -/
def Obligations.HostReadsAreDefinedWhenNoCommandExecutes : Prop :=
  ∀ (k : Nat) (s : State),
    (hostReadRegister k s 0 = statusWord s) ∧
    (s.busy = false ∨ s.err = true → (∀ r, hostReadRegister k s r = hostRegister s r) ∧
      ∀ a, a < s.cfg.fbLen → hostReadFb k s a = s.fbByte a)

/-- Reset, at any time: every register at its value of R38, no word left, the configuration kept (R250, R251); and the words
sent after it are numbered from 0, the first of them taken as a header word (R86, R250, R253). One step for a command is log
entry 6, and a next state for an illegal header log entry 4. -/
def Obligations.ResetClearsEveryRegisterAndRestartsTheStream : Prop :=
  ∀ s : State, ((hostReset s).cursor.col = 0 ∧ (hostReset s).cursor.row = 0 ∧ (hostReset s).noline = false ∧
    (hostReset s).err = false ∧ (hostReset s).avalid = false ∧ (hostReset s).gprint = false ∧
    (hostReset s).busy = false ∧ (hostReset s).aidx = 0 ∧ (hostReset s).abit = 0 ∧ (hostReset s).gwidth = 0 ∧
    (hostReset s).goff = 0 ∧ (hostReset s).errCause = 0 ∧ (hostReset s).errWord = 0 ∧ (hostReset s).errPos = 0 ∧
    (hostReset s).sp = 0 ∧ (hostReset s).queue = [] ∧ (hostReset s).cfg = s.cfg) ∧
    (∀ ws i k, s.cfg.wf = true → decode ws = .command i k →
      ∃ t, step (hostSend ws (hostReset s)) = .next t ∧ t.sp = BitVec.ofNat 32 k ∧ t.queue = ws.drop k) ∧
    ∀ ws cause h, s.cfg.wf = true → decode ws = .illegal cause h →
      ∃ t, step (hostSend ws (hostReset s)) = .next t ∧ t.err = true ∧ t.errWord = h ∧ t.errPos = 0

/-- What the host does between steps keeps the invariant, from every state that has it: words sent in any number, and reset
(R25, R38, R250, R261). -/
def Obligations.HostActionsKeepTheInvariant : Prop :=
  ∀ (s : State) (ws : List Word), BetweenCommands s →
    BetweenCommands (hostSend ws s) ∧ BetweenCommands (hostReset s) ∧
      (hostSend ws s).cfg = s.cfg ∧ (hostReset s).cfg = s.cfg
end

