-- ==== Sys2Proof/Laws/Decode.lean ====
section
/-! SUPPORT. The encoder's pieces read back, and what the decoder looks at. -/

namespace Sys2Proof

theorem toInt_ofInt16 (v : Int) (h : isS16 v = true) : (BitVec.ofInt 16 v).toInt = v := by
  have h' : -32768 ≤ v ∧ v ≤ 32767 := by simpa [isS16] using h
  rw [BitVec.toInt_ofInt, Int.bmod_def]
  omega

theorem toNat_ofNat16 (n : Nat) (h : isU16 n = true) : (BitVec.ofNat 16 n).toNat = n := by
  have h' : n ≤ 65535 := by simpa [isU16] using h
  rw [BitVec.toNat_ofNat]; omega

@[simp] theorem lowByte_append (a b : Byte) : lowByte (a ++ b) = b := by
  ext i hi
  have h : (a ++ b).getLsbD i = b[i] := by rw [BitVec.getLsbD_append]; simp [hi]
  simpa [lowByte] using h

@[simp] theorem highByte_append (a b : Byte) : highByte (a ++ b) = a := by
  ext i hi
  have h : (a ++ b).getLsbD (8 + i) = a[i] := by rw [BitVec.getLsbD_append]; simp [hi]
  simpa [highByte] using h

theorem length_flatMap_encodeVertex (vs : List Point) : (vs.flatMap encodeVertex).length = 2 * vs.length := by
  induction vs with
  | nil => rfl
  | cons v vs ih => simp [encodeVertex, ih]; omega

theorem length_packChars (s : List Byte) : (packChars s).length = (s.length + 1) / 2 := by
  induction s using packChars.induct with
  | case1 => rfl
  | case2 a => simp [packChars]
  | case3 a b s ih => simp [packChars, ih]; omega

/-- Vertices read back what was encoded, whatever words follow. -/
theorem readVertices_encode (vs : List Point) (h : vs.all Point.wf = true) (rest : List Word) :
    readVertices vs.length (vs.flatMap encodeVertex ++ rest) = vs := by
  induction vs with
  | nil => simp [readVertices]
  | cons v vs ih =>
    obtain ⟨hv, hvs⟩ : v.wf = true ∧ vs.all Point.wf = true := by simpa using h
    obtain ⟨hx, hy⟩ : isS16 v.x = true ∧ isS16 v.y = true := by simpa [Point.wf] using hv
    simp [encodeVertex, readVertices, toInt_ofInt16 _ hx, toInt_ofInt16 _ hy, ih hvs]

/-- Characters read back what was packed, whatever words follow. -/
theorem readChars_packChars (s : List Byte) (rest : List Word) : readChars s.length (packChars s ++ rest) = s := by
  induction s using packChars.induct with
  | case1 => simp [readChars]
  | case2 a => simp [packChars, readChars]
  | case3 a b s ih => simp [packChars, readChars, ih]

/-- A command has the length its syntax says, and the length the decoder computes from its first two words (R82). -/
theorem length_encode (i : Instr) : (encode i).length = i.lengthWords := by
  cases i <;> simp only [encode, Instr.lengthWords, List.length_cons, List.length_nil, length_flatMap_encodeVertex,
    length_packChars] <;> omega

theorem readVertices_append (n : Nat) (ws more : List Word) (h : 2 * n ≤ ws.length) :
    readVertices n (ws ++ more) = readVertices n ws := by
  induction n generalizing ws with
  | zero => simp [readVertices]
  | succ n ih =>
    match ws, h with
    | x :: y :: ws, h => simp [readVertices, ih ws (by simp at h; omega)]

theorem readChars_append (n : Nat) (ws more : List Word) (h : (n + 1) / 2 ≤ ws.length) :
    readChars n (ws ++ more) = readChars n ws := by
  induction n using Nat.twoStepInduction generalizing ws with
  | zero => simp [readChars]
  | one =>
    match ws, h with
    | w :: ws, _ => simp [readChars]
  | more n ih _ =>
    match ws, h with
    | [], h => simp at h
    | w :: ws, h => simp [readChars, ih ws (by simp at h; omega)]

theorem operandWord_append (ws more : List Word) (j : Nat) (h : j < ws.length) :
    operandWord (ws ++ more) j = operandWord ws j := by
  simp [operandWord, List.getD_eq_getElem?_getD, List.getElem?_append_left h]

/-- The operands of a command that is all there do not depend on the words after it (R86). -/
theorem readOperands_append (op : Opcode) (ws more : List Word) (k : Nat) (hk : commandLength op ws.head? = some k)
    (h : k ≤ ws.length + 1) : readOperands op (ws ++ more) = readOperands op ws := by
  cases op <;> simp only [commandLength, Option.map_eq_some_iff, Option.some.injEq] at hk
  case clear => rfl
  case nextline => rfl
  case polygon =>
    obtain ⟨w, hw, rfl⟩ := hk
    match ws, hw with
    | w :: ws, rfl =>
      simp only [readOperands, readU16, List.cons_append, List.drop_one, List.tail_cons]
      simp only [operandWord, List.getD_cons_zero]
      rw [readVertices_append]; simp at h; omega
  case polyline =>
    obtain ⟨w, hw, rfl⟩ := hk
    match ws, hw with
    | w :: ws, rfl =>
      simp only [readOperands, readU16, List.cons_append, List.drop_one, List.tail_cons]
      simp only [operandWord, List.getD_cons_zero]
      rw [readVertices_append]; simp at h; omega
  case text =>
    obtain ⟨w, hw, rfl⟩ := hk
    match ws, hw with
    | w :: ws, rfl =>
      simp only [readOperands, readU16, List.cons_append, List.drop_one, List.tail_cons]
      simp only [operandWord, List.getD_cons_zero]
      rw [readChars_append]; simp at h; omega
  all_goals
    subst hk
    simp only [readOperands, readS16]
    repeat rw [operandWord_append _ _ _ (by omega)]

/-- What the decoder answers, from the header and the length check (R86). -/
theorem decode_cons (h : Word) (ws : List Word) (op : Opcode) (h0 : headerRsv h = 0)
    (ho : opcodeOf (headerOp h) = some op) : decode (h :: ws) =
    match commandLength op ws.head? with
    | none => .incomplete
    | some k => if ws.length + 1 < k then .incomplete else .command (readOperands op ws) k := by
  rw [decode, if_neg (not_not.2 h0), ho] <;> rfl

/-- A decoded command, taken apart: its header, its length, and the operands (R86). -/
theorem decode_eq_command (ws : List Word) (i : Instr) (k : Nat) : decode ws = .command i k ↔
    ∃ h rest op, ws = h :: rest ∧ headerRsv h = 0 ∧ opcodeOf (headerOp h) = some op ∧
      commandLength op rest.head? = some k ∧ k ≤ ws.length ∧ i = readOperands op rest := by
  cases ws with
  | nil => simp [decode]
  | cons h rest =>
    by_cases h0 : headerRsv h = 0
    · cases ho : opcodeOf (headerOp h) with
      | none =>
        rw [decode, if_neg (not_not.2 h0), ho]
        refine ⟨fun e => (nomatch e), ?_⟩
        rintro ⟨h', rest', op', he, -, ho', -⟩
        rw [← (List.cons.inj he).1, ho] at ho'
        cases ho'
      | some op =>
        rw [decode_cons h rest op h0 ho]
        cases hk : commandLength op rest.head? with
        | none => simp [ho, hk]
        | some n =>
          by_cases hn : rest.length + 1 < n
          · simp only [hn, if_true]
            refine ⟨fun e => (nomatch e), ?_⟩
            rintro ⟨h', rest', op', he, -, ho', hk', hl, -⟩
            obtain ⟨rfl, rfl⟩ := List.cons.inj he
            obtain rfl := Option.some.inj (ho.symm.trans ho')
            obtain rfl := Option.some.inj (hk.symm.trans hk')
            simp only [List.length_cons] at hl; omega
          · simp only [hn, if_false, Decoded.command.injEq]
            constructor
            · rintro ⟨rfl, rfl⟩
              exact ⟨h, rest, op, rfl, h0, ho, hk, by simp only [List.length_cons]; omega, rfl⟩
            · rintro ⟨h', rest', op', he, -, ho', hk', -, rfl⟩
              obtain ⟨rfl, rfl⟩ := List.cons.inj he
              obtain rfl := Option.some.inj (ho.symm.trans ho')
              exact ⟨rfl, Option.some.inj (hk.symm.trans hk')⟩
    · rw [decode, if_pos h0]
      refine ⟨fun e => (nomatch e), ?_⟩
      rintro ⟨h', rest', op', he, h0', -⟩
      exact absurd ((List.cons.inj he).1 ▸ h0') h0

end Sys2Proof
end

