-- ==== Sys2Proof/Laws/State.lean ====
section
/-! SUPPORT. What each update of the state does to each field, so that no proof unfolds a record update. -/

namespace Sys2Proof.Machine

@[simp] theorem State.withFb_cfg (s : State) (m : Memory) :
    (s.withFb m).cfg = s.cfg := rfl
@[simp] theorem State.withFb_fb (s : State) (m : Memory) :
    (s.withFb m).fb = m := rfl
@[simp] theorem State.withFb_cursor (s : State) (m : Memory) :
    (s.withFb m).cursor = s.cursor := rfl
@[simp] theorem State.withFb_noline (s : State) (m : Memory) :
    (s.withFb m).noline = s.noline := rfl
@[simp] theorem State.withFb_err (s : State) (m : Memory) :
    (s.withFb m).err = s.err := rfl
@[simp] theorem State.withFb_avalid (s : State) (m : Memory) :
    (s.withFb m).avalid = s.avalid := rfl
@[simp] theorem State.withFb_gprint (s : State) (m : Memory) :
    (s.withFb m).gprint = s.gprint := rfl
@[simp] theorem State.withFb_busy (s : State) (m : Memory) :
    (s.withFb m).busy = s.busy := rfl
@[simp] theorem State.withFb_aidx (s : State) (m : Memory) :
    (s.withFb m).aidx = s.aidx := rfl
@[simp] theorem State.withFb_abit (s : State) (m : Memory) :
    (s.withFb m).abit = s.abit := rfl
@[simp] theorem State.withFb_gwidth (s : State) (m : Memory) :
    (s.withFb m).gwidth = s.gwidth := rfl
@[simp] theorem State.withFb_goff (s : State) (m : Memory) :
    (s.withFb m).goff = s.goff := rfl
@[simp] theorem State.withFb_errCause (s : State) (m : Memory) :
    (s.withFb m).errCause = s.errCause := rfl
@[simp] theorem State.withFb_errWord (s : State) (m : Memory) :
    (s.withFb m).errWord = s.errWord := rfl
@[simp] theorem State.withFb_errPos (s : State) (m : Memory) :
    (s.withFb m).errPos = s.errPos := rfl
@[simp] theorem State.withFb_sp (s : State) (m : Memory) :
    (s.withFb m).sp = s.sp := rfl
@[simp] theorem State.withFb_queue (s : State) (m : Memory) :
    (s.withFb m).queue = s.queue := rfl
@[simp] theorem State.withFb_resetEpoch (s : State) (m : Memory) :
    (s.withFb m).resetEpoch = s.resetEpoch := rfl

@[simp] theorem State.withCursor_cfg (s : State) (cur : Cursor) :
    (s.withCursor cur).cfg = s.cfg := rfl
@[simp] theorem State.withCursor_fb (s : State) (cur : Cursor) :
    (s.withCursor cur).fb = s.fb := rfl
@[simp] theorem State.withCursor_cursor (s : State) (cur : Cursor) :
    (s.withCursor cur).cursor = cur := rfl
@[simp] theorem State.withCursor_noline (s : State) (cur : Cursor) :
    (s.withCursor cur).noline = s.noline := rfl
@[simp] theorem State.withCursor_err (s : State) (cur : Cursor) :
    (s.withCursor cur).err = s.err := rfl
@[simp] theorem State.withCursor_avalid (s : State) (cur : Cursor) :
    (s.withCursor cur).avalid = s.avalid := rfl
@[simp] theorem State.withCursor_gprint (s : State) (cur : Cursor) :
    (s.withCursor cur).gprint = s.gprint := rfl
@[simp] theorem State.withCursor_busy (s : State) (cur : Cursor) :
    (s.withCursor cur).busy = s.busy := rfl
@[simp] theorem State.withCursor_aidx (s : State) (cur : Cursor) :
    (s.withCursor cur).aidx = s.aidx := rfl
@[simp] theorem State.withCursor_abit (s : State) (cur : Cursor) :
    (s.withCursor cur).abit = s.abit := rfl
@[simp] theorem State.withCursor_gwidth (s : State) (cur : Cursor) :
    (s.withCursor cur).gwidth = s.gwidth := rfl
@[simp] theorem State.withCursor_goff (s : State) (cur : Cursor) :
    (s.withCursor cur).goff = s.goff := rfl
@[simp] theorem State.withCursor_errCause (s : State) (cur : Cursor) :
    (s.withCursor cur).errCause = s.errCause := rfl
@[simp] theorem State.withCursor_errWord (s : State) (cur : Cursor) :
    (s.withCursor cur).errWord = s.errWord := rfl
@[simp] theorem State.withCursor_errPos (s : State) (cur : Cursor) :
    (s.withCursor cur).errPos = s.errPos := rfl
@[simp] theorem State.withCursor_sp (s : State) (cur : Cursor) :
    (s.withCursor cur).sp = s.sp := rfl
@[simp] theorem State.withCursor_queue (s : State) (cur : Cursor) :
    (s.withCursor cur).queue = s.queue := rfl
@[simp] theorem State.withCursor_resetEpoch (s : State) (cur : Cursor) :
    (s.withCursor cur).resetEpoch = s.resetEpoch := rfl

@[simp] theorem State.withAddress_cfg (s : State) (v : Bool) (a b : Nat) :
    (s.withAddress v a b).cfg = s.cfg := rfl
@[simp] theorem State.withAddress_fb (s : State) (v : Bool) (a b : Nat) :
    (s.withAddress v a b).fb = s.fb := rfl
@[simp] theorem State.withAddress_cursor (s : State) (v : Bool) (a b : Nat) :
    (s.withAddress v a b).cursor = s.cursor := rfl
@[simp] theorem State.withAddress_noline (s : State) (v : Bool) (a b : Nat) :
    (s.withAddress v a b).noline = s.noline := rfl
@[simp] theorem State.withAddress_err (s : State) (v : Bool) (a b : Nat) :
    (s.withAddress v a b).err = s.err := rfl
@[simp] theorem State.withAddress_avalid (s : State) (v : Bool) (a b : Nat) :
    (s.withAddress v a b).avalid = v := rfl
@[simp] theorem State.withAddress_gprint (s : State) (v : Bool) (a b : Nat) :
    (s.withAddress v a b).gprint = s.gprint := rfl
@[simp] theorem State.withAddress_busy (s : State) (v : Bool) (a b : Nat) :
    (s.withAddress v a b).busy = s.busy := rfl
@[simp] theorem State.withAddress_aidx (s : State) (v : Bool) (a b : Nat) :
    (s.withAddress v a b).aidx = BitVec.ofNat 32 a := rfl
@[simp] theorem State.withAddress_abit (s : State) (v : Bool) (a b : Nat) :
    (s.withAddress v a b).abit = BitVec.ofNat 3 b := rfl
@[simp] theorem State.withAddress_gwidth (s : State) (v : Bool) (a b : Nat) :
    (s.withAddress v a b).gwidth = s.gwidth := rfl
@[simp] theorem State.withAddress_goff (s : State) (v : Bool) (a b : Nat) :
    (s.withAddress v a b).goff = s.goff := rfl
@[simp] theorem State.withAddress_errCause (s : State) (v : Bool) (a b : Nat) :
    (s.withAddress v a b).errCause = s.errCause := rfl
@[simp] theorem State.withAddress_errWord (s : State) (v : Bool) (a b : Nat) :
    (s.withAddress v a b).errWord = s.errWord := rfl
@[simp] theorem State.withAddress_errPos (s : State) (v : Bool) (a b : Nat) :
    (s.withAddress v a b).errPos = s.errPos := rfl
@[simp] theorem State.withAddress_sp (s : State) (v : Bool) (a b : Nat) :
    (s.withAddress v a b).sp = s.sp := rfl
@[simp] theorem State.withAddress_queue (s : State) (v : Bool) (a b : Nat) :
    (s.withAddress v a b).queue = s.queue := rfl
@[simp] theorem State.withAddress_resetEpoch (s : State) (v : Bool) (a b : Nat) :
    (s.withAddress v a b).resetEpoch = s.resetEpoch := rfl

@[simp] theorem State.withGlyph_cfg (s : State) (p : Bool) (w : Byte) (o : Nat) :
    (s.withGlyph p w o).cfg = s.cfg := rfl
@[simp] theorem State.withGlyph_fb (s : State) (p : Bool) (w : Byte) (o : Nat) :
    (s.withGlyph p w o).fb = s.fb := rfl
@[simp] theorem State.withGlyph_cursor (s : State) (p : Bool) (w : Byte) (o : Nat) :
    (s.withGlyph p w o).cursor = s.cursor := rfl
@[simp] theorem State.withGlyph_noline (s : State) (p : Bool) (w : Byte) (o : Nat) :
    (s.withGlyph p w o).noline = s.noline := rfl
@[simp] theorem State.withGlyph_err (s : State) (p : Bool) (w : Byte) (o : Nat) :
    (s.withGlyph p w o).err = s.err := rfl
@[simp] theorem State.withGlyph_avalid (s : State) (p : Bool) (w : Byte) (o : Nat) :
    (s.withGlyph p w o).avalid = s.avalid := rfl
@[simp] theorem State.withGlyph_gprint (s : State) (p : Bool) (w : Byte) (o : Nat) :
    (s.withGlyph p w o).gprint = p := rfl
@[simp] theorem State.withGlyph_busy (s : State) (p : Bool) (w : Byte) (o : Nat) :
    (s.withGlyph p w o).busy = s.busy := rfl
@[simp] theorem State.withGlyph_aidx (s : State) (p : Bool) (w : Byte) (o : Nat) :
    (s.withGlyph p w o).aidx = s.aidx := rfl
@[simp] theorem State.withGlyph_abit (s : State) (p : Bool) (w : Byte) (o : Nat) :
    (s.withGlyph p w o).abit = s.abit := rfl
@[simp] theorem State.withGlyph_gwidth (s : State) (p : Bool) (w : Byte) (o : Nat) :
    (s.withGlyph p w o).gwidth = w := rfl
@[simp] theorem State.withGlyph_goff (s : State) (p : Bool) (w : Byte) (o : Nat) :
    (s.withGlyph p w o).goff = BitVec.ofNat 32 o := rfl
@[simp] theorem State.withGlyph_errCause (s : State) (p : Bool) (w : Byte) (o : Nat) :
    (s.withGlyph p w o).errCause = s.errCause := rfl
@[simp] theorem State.withGlyph_errWord (s : State) (p : Bool) (w : Byte) (o : Nat) :
    (s.withGlyph p w o).errWord = s.errWord := rfl
@[simp] theorem State.withGlyph_errPos (s : State) (p : Bool) (w : Byte) (o : Nat) :
    (s.withGlyph p w o).errPos = s.errPos := rfl
@[simp] theorem State.withGlyph_sp (s : State) (p : Bool) (w : Byte) (o : Nat) :
    (s.withGlyph p w o).sp = s.sp := rfl
@[simp] theorem State.withGlyph_queue (s : State) (p : Bool) (w : Byte) (o : Nat) :
    (s.withGlyph p w o).queue = s.queue := rfl
@[simp] theorem State.withGlyph_resetEpoch (s : State) (p : Bool) (w : Byte) (o : Nat) :
    (s.withGlyph p w o).resetEpoch = s.resetEpoch := rfl

@[simp] theorem State.withNoline_cfg (s : State) (f : Bool) :
    (s.withNoline f).cfg = s.cfg := rfl
@[simp] theorem State.withNoline_fb (s : State) (f : Bool) :
    (s.withNoline f).fb = s.fb := rfl
@[simp] theorem State.withNoline_cursor (s : State) (f : Bool) :
    (s.withNoline f).cursor = s.cursor := rfl
@[simp] theorem State.withNoline_noline (s : State) (f : Bool) :
    (s.withNoline f).noline = f := rfl
@[simp] theorem State.withNoline_err (s : State) (f : Bool) :
    (s.withNoline f).err = s.err := rfl
@[simp] theorem State.withNoline_avalid (s : State) (f : Bool) :
    (s.withNoline f).avalid = s.avalid := rfl
@[simp] theorem State.withNoline_gprint (s : State) (f : Bool) :
    (s.withNoline f).gprint = s.gprint := rfl
@[simp] theorem State.withNoline_busy (s : State) (f : Bool) :
    (s.withNoline f).busy = s.busy := rfl
@[simp] theorem State.withNoline_aidx (s : State) (f : Bool) :
    (s.withNoline f).aidx = s.aidx := rfl
@[simp] theorem State.withNoline_abit (s : State) (f : Bool) :
    (s.withNoline f).abit = s.abit := rfl
@[simp] theorem State.withNoline_gwidth (s : State) (f : Bool) :
    (s.withNoline f).gwidth = s.gwidth := rfl
@[simp] theorem State.withNoline_goff (s : State) (f : Bool) :
    (s.withNoline f).goff = s.goff := rfl
@[simp] theorem State.withNoline_errCause (s : State) (f : Bool) :
    (s.withNoline f).errCause = s.errCause := rfl
@[simp] theorem State.withNoline_errWord (s : State) (f : Bool) :
    (s.withNoline f).errWord = s.errWord := rfl
@[simp] theorem State.withNoline_errPos (s : State) (f : Bool) :
    (s.withNoline f).errPos = s.errPos := rfl
@[simp] theorem State.withNoline_sp (s : State) (f : Bool) :
    (s.withNoline f).sp = s.sp := rfl
@[simp] theorem State.withNoline_queue (s : State) (f : Bool) :
    (s.withNoline f).queue = s.queue := rfl
@[simp] theorem State.withNoline_resetEpoch (s : State) (f : Bool) :
    (s.withNoline f).resetEpoch = s.resetEpoch := rfl

@[simp] theorem raiseIllegalCommand_cfg (c : IllegalCause) (h : Word) (s : State) :
    (raiseIllegalCommand c h s).cfg = s.cfg := rfl
@[simp] theorem raiseIllegalCommand_fb (c : IllegalCause) (h : Word) (s : State) :
    (raiseIllegalCommand c h s).fb = s.fb := rfl
@[simp] theorem raiseIllegalCommand_cursor (c : IllegalCause) (h : Word) (s : State) :
    (raiseIllegalCommand c h s).cursor = s.cursor := rfl
@[simp] theorem raiseIllegalCommand_noline (c : IllegalCause) (h : Word) (s : State) :
    (raiseIllegalCommand c h s).noline = s.noline := rfl
@[simp] theorem raiseIllegalCommand_err (c : IllegalCause) (h : Word) (s : State) :
    (raiseIllegalCommand c h s).err = true := rfl
@[simp] theorem raiseIllegalCommand_avalid (c : IllegalCause) (h : Word) (s : State) :
    (raiseIllegalCommand c h s).avalid = s.avalid := rfl
@[simp] theorem raiseIllegalCommand_gprint (c : IllegalCause) (h : Word) (s : State) :
    (raiseIllegalCommand c h s).gprint = s.gprint := rfl
@[simp] theorem raiseIllegalCommand_busy (c : IllegalCause) (h : Word) (s : State) :
    (raiseIllegalCommand c h s).busy = s.busy := rfl
@[simp] theorem raiseIllegalCommand_aidx (c : IllegalCause) (h : Word) (s : State) :
    (raiseIllegalCommand c h s).aidx = s.aidx := rfl
@[simp] theorem raiseIllegalCommand_abit (c : IllegalCause) (h : Word) (s : State) :
    (raiseIllegalCommand c h s).abit = s.abit := rfl
@[simp] theorem raiseIllegalCommand_gwidth (c : IllegalCause) (h : Word) (s : State) :
    (raiseIllegalCommand c h s).gwidth = s.gwidth := rfl
@[simp] theorem raiseIllegalCommand_goff (c : IllegalCause) (h : Word) (s : State) :
    (raiseIllegalCommand c h s).goff = s.goff := rfl
@[simp] theorem raiseIllegalCommand_errCause (c : IllegalCause) (h : Word) (s : State) :
    (raiseIllegalCommand c h s).errCause = causeCode c := rfl
@[simp] theorem raiseIllegalCommand_errWord (c : IllegalCause) (h : Word) (s : State) :
    (raiseIllegalCommand c h s).errWord = h := rfl
@[simp] theorem raiseIllegalCommand_errPos (c : IllegalCause) (h : Word) (s : State) :
    (raiseIllegalCommand c h s).errPos = s.sp := rfl
@[simp] theorem raiseIllegalCommand_sp (c : IllegalCause) (h : Word) (s : State) :
    (raiseIllegalCommand c h s).sp = s.sp := rfl
@[simp] theorem raiseIllegalCommand_queue (c : IllegalCause) (h : Word) (s : State) :
    (raiseIllegalCommand c h s).queue = s.queue := rfl
@[simp] theorem raiseIllegalCommand_resetEpoch (c : IllegalCause) (h : Word) (s : State) :
    (raiseIllegalCommand c h s).resetEpoch = s.resetEpoch := rfl

@[simp] theorem beginCommand_cfg (s : State) :
    (beginCommand s).cfg = s.cfg := rfl
@[simp] theorem beginCommand_fb (s : State) :
    (beginCommand s).fb = s.fb := rfl
@[simp] theorem beginCommand_cursor (s : State) :
    (beginCommand s).cursor = s.cursor := rfl
@[simp] theorem beginCommand_noline (s : State) :
    (beginCommand s).noline = s.noline := rfl
@[simp] theorem beginCommand_err (s : State) :
    (beginCommand s).err = s.err := rfl
@[simp] theorem beginCommand_avalid (s : State) :
    (beginCommand s).avalid = s.avalid := rfl
@[simp] theorem beginCommand_gprint (s : State) :
    (beginCommand s).gprint = s.gprint := rfl
@[simp] theorem beginCommand_busy (s : State) :
    (beginCommand s).busy = true := rfl
@[simp] theorem beginCommand_aidx (s : State) :
    (beginCommand s).aidx = s.aidx := rfl
@[simp] theorem beginCommand_abit (s : State) :
    (beginCommand s).abit = s.abit := rfl
@[simp] theorem beginCommand_gwidth (s : State) :
    (beginCommand s).gwidth = s.gwidth := rfl
@[simp] theorem beginCommand_goff (s : State) :
    (beginCommand s).goff = s.goff := rfl
@[simp] theorem beginCommand_errCause (s : State) :
    (beginCommand s).errCause = s.errCause := rfl
@[simp] theorem beginCommand_errWord (s : State) :
    (beginCommand s).errWord = s.errWord := rfl
@[simp] theorem beginCommand_errPos (s : State) :
    (beginCommand s).errPos = s.errPos := rfl
@[simp] theorem beginCommand_sp (s : State) :
    (beginCommand s).sp = s.sp := rfl
@[simp] theorem beginCommand_queue (s : State) :
    (beginCommand s).queue = s.queue := rfl
@[simp] theorem beginCommand_resetEpoch (s : State) :
    (beginCommand s).resetEpoch = s.resetEpoch := rfl

@[simp] theorem retireCommand_cfg (k : Nat) (s : State) :
    (retireCommand k s).cfg = s.cfg := rfl
@[simp] theorem retireCommand_fb (k : Nat) (s : State) :
    (retireCommand k s).fb = s.fb := rfl
@[simp] theorem retireCommand_cursor (k : Nat) (s : State) :
    (retireCommand k s).cursor = s.cursor := rfl
@[simp] theorem retireCommand_noline (k : Nat) (s : State) :
    (retireCommand k s).noline = s.noline := rfl
@[simp] theorem retireCommand_err (k : Nat) (s : State) :
    (retireCommand k s).err = s.err := rfl
@[simp] theorem retireCommand_avalid (k : Nat) (s : State) :
    (retireCommand k s).avalid = s.avalid := rfl
@[simp] theorem retireCommand_gprint (k : Nat) (s : State) :
    (retireCommand k s).gprint = s.gprint := rfl
@[simp] theorem retireCommand_busy (k : Nat) (s : State) :
    (retireCommand k s).busy = false := rfl
@[simp] theorem retireCommand_aidx (k : Nat) (s : State) :
    (retireCommand k s).aidx = s.aidx := rfl
@[simp] theorem retireCommand_abit (k : Nat) (s : State) :
    (retireCommand k s).abit = s.abit := rfl
@[simp] theorem retireCommand_gwidth (k : Nat) (s : State) :
    (retireCommand k s).gwidth = s.gwidth := rfl
@[simp] theorem retireCommand_goff (k : Nat) (s : State) :
    (retireCommand k s).goff = s.goff := rfl
@[simp] theorem retireCommand_errCause (k : Nat) (s : State) :
    (retireCommand k s).errCause = s.errCause := rfl
@[simp] theorem retireCommand_errWord (k : Nat) (s : State) :
    (retireCommand k s).errWord = s.errWord := rfl
@[simp] theorem retireCommand_errPos (k : Nat) (s : State) :
    (retireCommand k s).errPos = s.errPos := rfl
@[simp] theorem retireCommand_sp (k : Nat) (s : State) :
    (retireCommand k s).sp = s.sp + BitVec.ofNat 32 k := rfl
@[simp] theorem retireCommand_queue (k : Nat) (s : State) :
    (retireCommand k s).queue = s.queue.drop k := rfl
@[simp] theorem retireCommand_resetEpoch (k : Nat) (s : State) :
    (retireCommand k s).resetEpoch = s.resetEpoch := rfl

@[simp] theorem placeWords_cfg (ws : List Word) (s : State) :
    (placeWords ws s).cfg = s.cfg := rfl
@[simp] theorem placeWords_fb (ws : List Word) (s : State) :
    (placeWords ws s).fb = s.fb := rfl
@[simp] theorem placeWords_cursor (ws : List Word) (s : State) :
    (placeWords ws s).cursor = s.cursor := rfl
@[simp] theorem placeWords_noline (ws : List Word) (s : State) :
    (placeWords ws s).noline = s.noline := rfl
@[simp] theorem placeWords_err (ws : List Word) (s : State) :
    (placeWords ws s).err = s.err := rfl
@[simp] theorem placeWords_avalid (ws : List Word) (s : State) :
    (placeWords ws s).avalid = s.avalid := rfl
@[simp] theorem placeWords_gprint (ws : List Word) (s : State) :
    (placeWords ws s).gprint = s.gprint := rfl
@[simp] theorem placeWords_busy (ws : List Word) (s : State) :
    (placeWords ws s).busy = s.busy := rfl
@[simp] theorem placeWords_aidx (ws : List Word) (s : State) :
    (placeWords ws s).aidx = s.aidx := rfl
@[simp] theorem placeWords_abit (ws : List Word) (s : State) :
    (placeWords ws s).abit = s.abit := rfl
@[simp] theorem placeWords_gwidth (ws : List Word) (s : State) :
    (placeWords ws s).gwidth = s.gwidth := rfl
@[simp] theorem placeWords_goff (ws : List Word) (s : State) :
    (placeWords ws s).goff = s.goff := rfl
@[simp] theorem placeWords_errCause (ws : List Word) (s : State) :
    (placeWords ws s).errCause = s.errCause := rfl
@[simp] theorem placeWords_errWord (ws : List Word) (s : State) :
    (placeWords ws s).errWord = s.errWord := rfl
@[simp] theorem placeWords_errPos (ws : List Word) (s : State) :
    (placeWords ws s).errPos = s.errPos := rfl
@[simp] theorem placeWords_sp (ws : List Word) (s : State) :
    (placeWords ws s).sp = s.sp := rfl
@[simp] theorem placeWords_queue (ws : List Word) (s : State) :
    (placeWords ws s).queue = ws ++ s.queue.drop ws.length := rfl
@[simp] theorem placeWords_resetEpoch (ws : List Word) (s : State) :
    (placeWords ws s).resetEpoch = s.resetEpoch := rfl

@[simp] theorem hostSend_cfg (ws : List Word) (s : State) :
    (hostSend ws s).cfg = s.cfg := rfl
@[simp] theorem hostSend_fb (ws : List Word) (s : State) :
    (hostSend ws s).fb = s.fb := rfl
@[simp] theorem hostSend_cursor (ws : List Word) (s : State) :
    (hostSend ws s).cursor = s.cursor := rfl
@[simp] theorem hostSend_noline (ws : List Word) (s : State) :
    (hostSend ws s).noline = s.noline := rfl
@[simp] theorem hostSend_err (ws : List Word) (s : State) :
    (hostSend ws s).err = s.err := rfl
@[simp] theorem hostSend_avalid (ws : List Word) (s : State) :
    (hostSend ws s).avalid = s.avalid := rfl
@[simp] theorem hostSend_gprint (ws : List Word) (s : State) :
    (hostSend ws s).gprint = s.gprint := rfl
@[simp] theorem hostSend_busy (ws : List Word) (s : State) :
    (hostSend ws s).busy = s.busy := rfl
@[simp] theorem hostSend_aidx (ws : List Word) (s : State) :
    (hostSend ws s).aidx = s.aidx := rfl
@[simp] theorem hostSend_abit (ws : List Word) (s : State) :
    (hostSend ws s).abit = s.abit := rfl
@[simp] theorem hostSend_gwidth (ws : List Word) (s : State) :
    (hostSend ws s).gwidth = s.gwidth := rfl
@[simp] theorem hostSend_goff (ws : List Word) (s : State) :
    (hostSend ws s).goff = s.goff := rfl
@[simp] theorem hostSend_errCause (ws : List Word) (s : State) :
    (hostSend ws s).errCause = s.errCause := rfl
@[simp] theorem hostSend_errWord (ws : List Word) (s : State) :
    (hostSend ws s).errWord = s.errWord := rfl
@[simp] theorem hostSend_errPos (ws : List Word) (s : State) :
    (hostSend ws s).errPos = s.errPos := rfl
@[simp] theorem hostSend_sp (ws : List Word) (s : State) :
    (hostSend ws s).sp = s.sp := rfl
@[simp] theorem hostSend_queue (ws : List Word) (s : State) :
    (hostSend ws s).queue = s.queue ++ ws := rfl
@[simp] theorem hostSend_resetEpoch (ws : List Word) (s : State) :
    (hostSend ws s).resetEpoch = s.resetEpoch := rfl

@[simp] theorem State.resetOf_cfg (c : Config) (e : Nat) :
    (State.resetOf c e).cfg = c := rfl
@[simp] theorem State.resetOf_fb (c : Config) (e : Nat) :
    (State.resetOf c e).fb = [] := rfl
@[simp] theorem State.resetOf_cursor (c : Config) (e : Nat) :
    (State.resetOf c e).cursor = ⟨0, 0⟩ := rfl
@[simp] theorem State.resetOf_noline (c : Config) (e : Nat) :
    (State.resetOf c e).noline = false := rfl
@[simp] theorem State.resetOf_err (c : Config) (e : Nat) :
    (State.resetOf c e).err = false := rfl
@[simp] theorem State.resetOf_avalid (c : Config) (e : Nat) :
    (State.resetOf c e).avalid = false := rfl
@[simp] theorem State.resetOf_gprint (c : Config) (e : Nat) :
    (State.resetOf c e).gprint = false := rfl
@[simp] theorem State.resetOf_busy (c : Config) (e : Nat) :
    (State.resetOf c e).busy = false := rfl
@[simp] theorem State.resetOf_aidx (c : Config) (e : Nat) :
    (State.resetOf c e).aidx = 0 := rfl
@[simp] theorem State.resetOf_abit (c : Config) (e : Nat) :
    (State.resetOf c e).abit = 0 := rfl
@[simp] theorem State.resetOf_gwidth (c : Config) (e : Nat) :
    (State.resetOf c e).gwidth = 0 := rfl
@[simp] theorem State.resetOf_goff (c : Config) (e : Nat) :
    (State.resetOf c e).goff = 0 := rfl
@[simp] theorem State.resetOf_errCause (c : Config) (e : Nat) :
    (State.resetOf c e).errCause = 0 := rfl
@[simp] theorem State.resetOf_errWord (c : Config) (e : Nat) :
    (State.resetOf c e).errWord = 0 := rfl
@[simp] theorem State.resetOf_errPos (c : Config) (e : Nat) :
    (State.resetOf c e).errPos = 0 := rfl
@[simp] theorem State.resetOf_sp (c : Config) (e : Nat) :
    (State.resetOf c e).sp = 0 := rfl
@[simp] theorem State.resetOf_queue (c : Config) (e : Nat) :
    (State.resetOf c e).queue = [] := rfl
@[simp] theorem State.resetOf_resetEpoch (c : Config) (e : Nat) :
    (State.resetOf c e).resetEpoch = e := rfl

end Sys2Proof.Machine
end

