-- ==== Sys2Proof/Laws/Geometry.lean ====
section
/-! SUPPORT. What a well-formed configuration says, and the range of the addressing law in it (R6, R53 to R58, R163). -/

namespace Sys2Proof

open Machine

theorem Config.wf_iff (c : Config) : c.wf = true ↔ c.GeometryWf ∧ c.glyphsWf = true := by
  simp [Config.wf]

theorem Config.geometry_of_wf {c : Config} (h : c.wf = true) : c.GeometryWf := ((Config.wf_iff c).1 h).1

theorem romReaches_iff (n : Nat) (rom : List Byte) : romReaches n rom = true ↔ n ≤ rom.length := by
  induction n generalizing rom with
  | zero => simp [romReaches]
  | succ n ih => cases rom <;> simp [romReaches, ih]

theorem GlyphTable.romWf_iff (g : GlyphTable) : g.romWf = true ↔ g.bitmapData.length ≤ 2 ^ 32 := by
  rw [GlyphTable.romWf, Bool.not_eq_true', ← Bool.not_eq_true, romReaches_iff]
  omega

theorem Config.glyphsWf_iff (c : Config) : c.glyphsWf = true ↔
    (c.glyphs.firstChar.toNat ≤ c.glyphs.lastChar.toNat ∧ 1 ≤ c.glyphPages ∧ c.glyphPages ≤ c.pages ∧
      c.glyphs.bitmapData.length ≤ 2 ^ 32) ∧
    c.glyphs.tablesWf = true ∧ ∀ ch ∈ c.printableCodes, c.glyphInRom ch = true := by
  simp only [Config.glyphsWf, Config.RangesWf, Bool.and_eq_true, decide_eq_true_eq, List.all_eq_true,
    GlyphTable.romWf_iff, and_assoc]

/-- `printableCodes` lists the printable codes and no others (R164). -/
theorem Config.mem_printableCodes (c : Config) (ch : Byte) : ch ∈ c.printableCodes ↔ c.IsPrintable ch := by
  simp only [Config.printableCodes, List.mem_map, List.mem_range'_1, Config.IsPrintable]
  constructor
  · rintro ⟨n, hn, rfl⟩
    have := c.glyphs.lastChar.isLt
    rw [BitVec.toNat_ofNat, Nat.mod_eq_of_lt (by omega)]
    omega
  · intro h
    exact ⟨ch.toNat, by omega, by simp⟩

theorem Config.pages_of_wf {c : Config} (h : c.wf = true) : 1 ≤ c.glyphPages ∧ c.glyphPages ≤ c.pages := by
  obtain ⟨⟨-, h1, h2, -⟩, -⟩ := (Config.glyphsWf_iff c).1 ((Config.wf_iff c).1 h).2
  exact ⟨h1, h2⟩

/-- `P` is at most 4095 (R10). -/
theorem Config.pages_le {c : Config} (h : c.GeometryWf) : c.pages ≤ 4095 := by
  obtain ⟨-, -, -, h, -⟩ := h
  unfold Config.pages; omega

/-- `H` is eight times `P` (R6, R7). -/
theorem Config.height_eq {c : Config} (h : c.GeometryWf) : c.height = 8 * c.pages := by
  obtain ⟨-, -, -, -, h⟩ := h
  unfold Config.pages; omega

/-- Every glyph of a well-formed table lies in the ROM (R163, item 4). -/
theorem Config.glyph_in_rom {c : Config} (h : c.wf = true) (ch : Byte) (hc : c.IsPrintable ch) :
    c.glyphByteOffset ch + (c.glyphWidth ch).toNat * c.glyphPages ≤ c.glyphs.bitmapData.length := by
  have := ((Config.glyphsWf_iff c).1 ((Config.wf_iff c).1 h).2).2.2 ch ((Config.mem_printableCodes c ch).2 hc)
  exact (romReaches_iff _ _).1 this

/-- Column `x` of page `pg` has an index in `1..N-1` (R56, R58). -/
theorem Config.pageIndex_range (c : Config) (x pg : Nat) (hx : x < c.width) (hp : pg < c.pages) :
    1 ≤ c.pageIndex x pg ∧ c.pageIndex x pg < c.fbLen := by
  have h : (pg + 1) * c.width ≤ c.pages * c.width := Nat.mul_le_mul_right _ hp
  rw [Nat.add_mul, Nat.one_mul] at h
  rw [Config.pageIndex, Config.fbLen, Nat.mul_comm c.width]
  omega

theorem Config.byteIndex_eq_pageIndex (c : Config) (x y : Int) :
    c.byteIndex x y = c.pageIndex x.toNat (y.toNat / 8) := rfl

/-- An in-bounds pixel has an index in `1..N-1` (R58). -/
theorem Config.byteIndex_range {c : Config} (h : c.GeometryWf) {x y : Int} (hb : c.InBounds x y) :
    1 ≤ c.byteIndex x y ∧ c.byteIndex x y < c.fbLen := by
  have := Config.height_eq h
  exact c.pageIndex_range _ _ (by omega) (by omega)

/-- Two columns and pages with one index are the same (R58). -/
theorem Config.pageIndex_inj (c : Config) {x1 p1 x2 p2 : Nat} (h1 : x1 < c.width) (h2 : x2 < c.width)
    (h : c.pageIndex x1 p1 = c.pageIndex x2 p2) : x1 = x2 ∧ p1 = p2 := by
  unfold Config.pageIndex at h
  have hw : 0 < c.width := by omega
  have hp : p1 = p2 := by
    have e1 : (x1 + p1 * c.width) / c.width = p1 := by
      rw [Nat.add_mul_div_right _ _ hw, Nat.div_eq_of_lt h1, Nat.zero_add]
    have e2 : (x2 + p2 * c.width) / c.width = p2 := by
      rw [Nat.add_mul_div_right _ _ hw, Nat.div_eq_of_lt h2, Nat.zero_add]
    rw [← e1, ← e2, show x1 + p1 * c.width = x2 + p2 * c.width by omega]
  subst hp
  exact ⟨by omega, rfl⟩

/-- Two in-bounds pixels with one byte and one bit are the same pixel (R58). -/
theorem Config.pixel_inj (c : Config) {x1 y1 x2 y2 : Int} (h1 : c.InBounds x1 y1) (h2 : c.InBounds x2 y2)
    (h : c.byteIndex x1 y1 = c.byteIndex x2 y2) (hb : bitOffset y1 = bitOffset y2) : x1 = x2 ∧ y1 = y2 := by
  obtain ⟨hx, hy⟩ := c.pageIndex_inj (by omega) (by omega) h
  unfold bitOffset at hb
  constructor <;> omega

theorem bitOffset_lt (y : Int) : bitOffset y < 8 := Nat.mod_lt _ (by decide)

/-- A clamped value is in its range, and is the value itself when that is in the range (R14). -/
theorem clamp_eq (v lo hi : Int) (h : lo ≤ hi) : clamp v lo hi = max lo (min v hi) := by
  unfold clamp; split <;> [skip; split] <;> omega

theorem clamp_range (v lo hi : Int) (h : lo ≤ hi) : lo ≤ clamp v lo hi ∧ clamp v lo hi ≤ hi := by
  rw [clamp_eq v lo hi h]; omega

theorem clamp_of_range (v lo hi : Int) (h1 : lo ≤ v) (h2 : v ≤ hi) : clamp v lo hi = v := by
  rw [clamp_eq v lo hi (by omega)]; omega

/-- A clamped point is on the canvas (R120). -/
theorem Config.clampPt_inBounds {c : Config} (h : c.GeometryWf) (x y : Int) :
    c.InBounds (c.clampPt x y).x (c.clampPt x y).y := by
  have hx := clamp_range x 0 (c.width - 1) (by omega)
  have hy := clamp_range y 0 (c.height - 1) (by omega)
  simp only [Config.InBounds, Config.clampPt]
  omega

end Sys2Proof
end

