-- ==== Sys2Proof/Laws/Memory.lean ====
section
/-! SUPPORT. The laws of framebuffer memory: what a read gives after a write or a fill, and that every operation keeps the
canonical form and writes no index it does not name. -/

namespace Sys2Proof.Machine

@[simp] theorem Memory.read_nil (a : Nat) : Memory.read [] a = none := rfl

@[simp] theorem Memory.read_cons (c : Host.Cell) (m : Memory) (a : Nat) :
    Memory.read (c :: m) a = if c.1 = a then some c.2 else m.read a := rfl

/-- What a read gives after a write: the value written there, the old value elsewhere. -/
theorem Memory.read_write (m : Memory) (a b : Nat) (v : Byte) :
    (m.write a v).read b = if a = b then some v else m.read b := by
  induction m with
  | nil => simp [Memory.write]
  | cons c m ih =>
    obtain ⟨k, u⟩ := c
    by_cases h1 : a < k
    · simp [Memory.write, h1]
    · by_cases h2 : a = k
      · subst h2; by_cases h : a = b <;> simp [Memory.write, h]
      · simp only [Memory.write, h1, h2, if_false, Memory.read_cons, ih]
        by_cases h : a = b
        · subst h; simp [Ne.symm h2]
        · simp [h]

@[simp] theorem Memory.read_write_same (m : Memory) (a : Nat) (v : Byte) : (m.write a v).read a = some v := by
  simp [Memory.read_write]

theorem Memory.read_write_other (m : Memory) (a b : Nat) (v : Byte) (h : a ≠ b) : (m.write a v).read b = m.read b := by
  simp [Memory.read_write, h]

theorem Memory.byte_write (epoch : Nat) (m : Memory) (a b : Nat) (v : Byte) :
    (m.write a v).byte epoch b = if a = b then v else m.byte epoch b := by
  by_cases h : a = b <;> simp [Memory.byte, Memory.read_write, h]

/-- A write lists only the index it is given, beside those already listed. -/
theorem Memory.mem_write (m : Memory) (a : Nat) (v : Byte) (c : Host.Cell) (h : c ∈ m.write a v) :
    c = (a, v) ∨ c ∈ m := by
  induction m with
  | nil => simpa [Memory.write] using h
  | cons d m ih =>
    obtain ⟨k, u⟩ := d
    by_cases h1 : a < k
    · simpa [Memory.write, h1] using h
    · by_cases h2 : a = k
      · simp only [Memory.write, h2, if_false, if_true, lt_irrefl, List.mem_cons] at h
        rcases h with h | h
        · exact .inl (by rw [h, h2])
        · exact .inr (List.mem_cons_of_mem _ h)
      · simp only [Memory.write, h1, h2, if_false, List.mem_cons] at h
        rcases h with h | h
        · exact .inr (by simp [h])
        · rcases ih h with h | h
          · exact .inl h
          · exact .inr (List.mem_cons_of_mem _ h)

/-- A write keeps the canonical form. -/
theorem Memory.write_wf (m : Memory) (a : Nat) (v : Byte) (h : m.wf) : (m.write a v).wf := by
  induction m with
  | nil => simp [Memory.write]
  | cons d m ih =>
    obtain ⟨k, u⟩ := d
    obtain ⟨hk, hm⟩ := List.pairwise_cons.1 h
    by_cases h1 : a < k
    · simp only [Memory.write, h1, if_true]
      exact List.pairwise_cons.2 ⟨fun c hc => by
        rcases List.mem_cons.1 hc with hc | hc
        · simpa [hc] using h1
        · exact lt_trans h1 (hk c hc), h⟩
    · by_cases h2 : a = k
      · subst h2; simpa [Memory.write] using h
      · simp only [Memory.write, h1, h2, if_false]
        refine List.pairwise_cons.2 ⟨fun c hc => ?_, ih hm⟩
        rcases Memory.mem_write m a v c hc with hc | hc
        · subst hc; show k < a; omega
        · exact hk c hc

/-- In canonical form a listed cell is what a read gives. -/
theorem Memory.read_of_mem (m : Memory) (h : m.wf) (c : Host.Cell) (hc : c ∈ m) : m.read c.1 = some c.2 := by
  induction m with
  | nil => cases hc
  | cons d m ih =>
    obtain ⟨hd, hm⟩ := List.pairwise_cons.1 h
    rcases List.mem_cons.1 hc with rfl | hc
    · simp
    · have := hd c hc
      simp [Nat.ne_of_lt this, ih hm hc]

theorem Memory.read_eq_none (m : Memory) (a : Nat) (h : ∀ c ∈ m, c.1 ≠ a) : m.read a = none := by
  induction m with
  | nil => rfl
  | cons d m ih => simp [h d (by simp), ih fun c hc => h c (by simp [hc])]

theorem Memory.read_append (m n : Memory) (a : Nat) : Memory.read (m ++ n) a = (m.read a).or (n.read a) := by
  induction m with
  | nil => simp
  | cons d m ih =>
    rw [List.cons_append, Memory.read_cons, Memory.read_cons, ih]
    split <;> simp

theorem Memory.read_filter (m : Memory) (p : Nat → Bool) (a : Nat) :
    Memory.read (m.filter fun c => p c.1) a = if p a then m.read a else none := by
  induction m with
  | nil => simp
  | cons d m ih =>
    simp only [List.filter_cons]
    by_cases hd : d.1 = a
    · by_cases hp : p a <;> simp [hd, hp, ih]
    · by_cases hp : p d.1 <;> simp [hd, hp, ih]

theorem Memory.read_const (v : Byte) (a n lo : Nat) :
    Memory.read ((List.range' lo n).map fun b => (b, v)) a = if lo ≤ a ∧ a < lo + n then some v else none := by
  induction n generalizing lo with
  | zero => simp [show ¬(lo ≤ a ∧ a < lo) by omega]
  | succ n ih =>
    rw [List.range'_succ, List.map_cons, Memory.read_cons, ih]
    by_cases h : lo = a
    · simp [h]
    · simp only [h, if_false]
      exact if_congr (by omega) rfl rfl

/-- What a read gives after a fill: the value filled, inside; the old value, outside. -/
theorem Memory.read_fill (m : Memory) (lo n : Nat) (v : Byte) (a : Nat) :
    (m.fill lo n v).read a = if lo ≤ a ∧ a < lo + n then some v else m.read a := by
  rw [Memory.fill, Memory.read_append, Memory.read_append, Memory.read_filter m (fun i => decide (i < lo)),
    Memory.read_filter m (fun i => decide (lo + n ≤ i)), Memory.read_const]
  by_cases h1 : a < lo
  · have h2 : ¬(lo ≤ a ∧ a < lo + n) := by omega
    have h3 : ¬(lo + n ≤ a) := by omega
    cases hr : m.read a <;> simp [h1, h2, h3]
  · by_cases h2 : a < lo + n
    · have h4 : lo ≤ a ∧ a < lo + n := by omega
      simp [h1, h4]
    · have h4 : ¬(lo ≤ a ∧ a < lo + n) := by omega
      have h5 : lo + n ≤ a := by omega
      simp [h1, h4, h5]

/-- A fill lists only the indices it is given, beside those already listed. -/
theorem Memory.mem_fill (m : Memory) (lo n : Nat) (v : Byte) (c : Host.Cell) (h : c ∈ m.fill lo n v) :
    (lo ≤ c.1 ∧ c.1 < lo + n ∧ c.2 = v) ∨ c ∈ m := by
  simp only [Memory.fill, List.mem_append, List.mem_filter, List.mem_map, List.mem_range'_1] at h
  rcases h with (⟨h, -⟩ | ⟨a, ha, rfl⟩) | ⟨h, -⟩
  · exact .inr h
  · exact .inl ⟨ha.1, ha.2, rfl⟩
  · exact .inr h

/-- A fill keeps the canonical form. -/
theorem Memory.fill_wf (m : Memory) (lo n : Nat) (v : Byte) (h : m.wf) : (m.fill lo n v).wf := by
  have hconst : ((List.range' lo n).map fun b => ((b, v) : Host.Cell)).Pairwise fun c d => c.1 < d.1 :=
    List.pairwise_map.2 (List.pairwise_lt_range' ..)
  refine List.pairwise_append.2 ⟨List.pairwise_append.2 ⟨h.filter _, hconst, ?_⟩, h.filter _, ?_⟩
  · intro c hc d hd
    simp only [List.mem_filter, decide_eq_true_eq, List.mem_map, List.mem_range'_1] at hc hd
    obtain ⟨a, ha, rfl⟩ := hd
    exact lt_of_lt_of_le hc.2 ha.1
  · intro c hc d hd
    simp only [List.mem_append, List.mem_filter, decide_eq_true_eq, List.mem_map, List.mem_range'_1] at hc hd
    rcases hc with ⟨-, hc⟩ | ⟨a, ha, rfl⟩
    · omega
    · show a < d.1; omega

/-- Equal canonical memories are equal data. -/
theorem Memory.ext_of_read (m n : Memory) (hm : m.wf) (hn : n.wf) (h : ∀ a, m.read a = n.read a) : m = n := by
  induction m generalizing n with
  | nil =>
    cases n with
    | nil => rfl
    | cons d n => exact absurd (h d.1) (by simp)
  | cons c m ih =>
    obtain ⟨hc, hm'⟩ := List.pairwise_cons.1 hm
    cases n with
    | nil => exact absurd (h c.1) (by simp)
    | cons d n =>
      obtain ⟨hd, hn'⟩ := List.pairwise_cons.1 hn
      have none_below : ∀ (l : Memory) (k a : Nat), (∀ e ∈ l, k < e.1) → a ≤ k → l.read a = none :=
        fun l k a hl ha => Memory.read_eq_none l a fun e he => by have := hl e he; omega
      have hcd : c.1 = d.1 := by
        rcases lt_trichotomy c.1 d.1 with hlt | heq | hgt
        · have := h c.1
          simp [Nat.ne_of_gt hlt, none_below n d.1 c.1 hd (le_of_lt hlt)] at this
        · exact heq
        · have := h d.1
          simp [Nat.ne_of_gt hgt, none_below m c.1 d.1 hc (le_of_lt hgt)] at this
      have hval : c.2 = d.2 := by simpa [hcd] using h c.1
      have htail : m = n := ih n hm' hn' fun a => by
        by_cases ha : c.1 = a
        · rw [none_below m c.1 a hc (by omega), none_below n d.1 a hd (by omega)]
        · simpa [ha, show d.1 ≠ a by omega] using h a
      rw [htail, Prod.ext hcd hval]

/-- One drawing write, read back: the byte it names, and every other. -/
theorem byte_apply_orBit (epoch : Nat) (m : Memory) (i b a : Nat) :
    (FbWrite.apply epoch m (.orBit i b)).byte epoch a =
      if i = a then m.byte epoch i ||| (1 : Byte) <<< b else m.byte epoch a := by
  simp [FbWrite.apply, Memory.byte_write]

theorem byte_apply_overwrite (epoch : Nat) (m : Memory) (i a : Nat) (v : Byte) :
    (FbWrite.apply epoch m (.overwrite i v)).byte epoch a = if i = a then v else m.byte epoch a := by
  simp [FbWrite.apply, Memory.byte_write]

theorem read_apply_other (epoch : Nat) (m : Memory) (w : FbWrite) (a : Nat) (h : w.index ≠ a) :
    (w.apply epoch m).read a = m.read a := by
  cases w <;> exact Memory.read_write_other _ _ _ _ h

theorem apply_wf (epoch : Nat) (m : Memory) (w : FbWrite) (h : m.wf) : (w.apply epoch m).wf := by
  cases w <;> exact Memory.write_wf _ _ _ h

theorem mem_apply (epoch : Nat) (m : Memory) (w : FbWrite) (c : Host.Cell) (h : c ∈ w.apply epoch m) :
    c.1 = w.index ∨ c ∈ m := by
  cases w <;> exact (Memory.mem_write _ _ _ _ h).imp_left fun h => by rw [h]; rfl

@[simp] theorem applyWrites_nil (epoch : Nat) (m : Memory) : applyWrites epoch m [] = m := rfl

@[simp] theorem applyWrites_cons (epoch : Nat) (m : Memory) (w : FbWrite) (ws : List FbWrite) :
    applyWrites epoch m (w :: ws) = applyWrites epoch (w.apply epoch m) ws := rfl

theorem applyWrites_append (epoch : Nat) (m : Memory) (ws vs : List FbWrite) :
    applyWrites epoch m (ws ++ vs) = applyWrites epoch (applyWrites epoch m ws) vs := List.foldl_append

/-- Writes leave every index they do not name alone. -/
theorem read_applyWrites_other (epoch : Nat) (m : Memory) (ws : List FbWrite) (a : Nat) (h : ∀ w ∈ ws, w.index ≠ a) :
    (applyWrites epoch m ws).read a = m.read a := by
  induction ws generalizing m with
  | nil => rfl
  | cons w ws ih =>
    rw [applyWrites_cons, ih _ fun v hv => h v (by simp [hv]), read_apply_other _ _ _ _ (h w (by simp))]

/-- Where every write to an index is one and the same overwrite, that is what the index holds afterwards. -/
theorem read_applyWrites_overwrite (epoch : Nat) (m : Memory) (ws : List FbWrite) (a : Nat) (v : Byte)
    (h : ∀ w ∈ ws, w.index = a → w = .overwrite a v) (hm : m.read a = some v ∨ ∃ w ∈ ws, w.index = a) :
    (applyWrites epoch m ws).read a = some v := by
  induction ws generalizing m with
  | nil => simpa using hm
  | cons w ws ih =>
    refine ih _ (fun x hx => h x (by simp [hx])) ?_
    by_cases hw : w.index = a
    · left
      rw [h w (by simp) hw, FbWrite.apply, Memory.read_write_same]
    · rcases hm with hm | ⟨x, hx, hi⟩
      · exact .inl ((read_apply_other epoch m w a hw).trans hm)
      · rcases List.mem_cons.1 hx with rfl | hx
        · exact absurd hi hw
        · exact .inr ⟨x, hx, hi⟩

/-- Writes keep the canonical form. -/
theorem applyWrites_wf (epoch : Nat) (m : Memory) (ws : List FbWrite) (h : m.wf) : (applyWrites epoch m ws).wf := by
  induction ws generalizing m with
  | nil => exact h
  | cons w ws ih => exact ih _ (apply_wf epoch m w h)

theorem mem_applyWrites (epoch : Nat) (m : Memory) (ws : List FbWrite) (c : Host.Cell)
    (h : c ∈ applyWrites epoch m ws) : (∃ w ∈ ws, c.1 = w.index) ∨ c ∈ m := by
  induction ws generalizing m with
  | nil => exact .inr h
  | cons w ws ih =>
    rcases ih _ h with ⟨v, hv, he⟩ | h
    · exact .inl ⟨v, by simp [hv], he⟩
    · exact (mem_apply epoch m w c h).imp_left fun h => ⟨w, by simp, h⟩

end Sys2Proof.Machine
end

