-- ==== Sys2Proof/Laws/Ops.lean ====
section
/-! SUPPORT. One law for each shared operation of `Machine/Ops.lean` and of the text engine: everything it can do. -/

namespace Sys2Proof.Machine

/-- `commit` answers a next state just when every write goes to a byte that exists, and then only the framebuffer is
written. -/
theorem commit_eq_next (ws : List FbWrite) (s t : State) : commit ws s = .next t ↔
    (∀ w ∈ ws, w.index < s.cfg.fbLen) ∧ t = s.withFb (applyWrites s.resetEpoch s.fb ws) := by
  unfold commit
  by_cases h : ws.all (fun w => decide (w.index < s.cfg.fbLen)) = true
  · have h' : ∀ w ∈ ws, w.index < s.cfg.fbLen := by simpa using h
    simp only [h, if_true, Host.Outcome.next.injEq]
    exact ⟨fun e => ⟨h', e.symm⟩, fun e => e.2.symm⟩
  · have h' : ¬∀ w ∈ ws, w.index < s.cfg.fbLen := by simpa using h
    simp [h, h']

theorem commit_next (ws : List FbWrite) (s : State) (h : ∀ w ∈ ws, w.index < s.cfg.fbLen) :
    commit ws s = .next (s.withFb (applyWrites s.resetEpoch s.fb ws)) := (commit_eq_next ws s _).2 ⟨h, rfl⟩

@[simp] theorem commit_nil (s : State) : commit [] s = .next s := rfl

/-- Two runs of writes are one. -/
theorem commit_append (ws vs : List FbWrite) (s t : State) (h : commit ws s = .next t) :
    commit (ws ++ vs) s = commit vs t := by
  obtain ⟨hw, rfl⟩ := (commit_eq_next ws s t).1 h
  have hw' : ws.all (fun w => decide (w.index < s.cfg.fbLen)) = true := by simpa using hw
  simp only [commit, List.all_append, hw', Bool.true_and, State.withFb_cfg, State.withFb_resetEpoch, State.withFb_fb,
    applyWrites_append]
  rfl

/-- The writes of SetPixel calls are the OR-writes of the points in bounds (R100). -/
theorem mem_pixelWrites (c : Config) (ps : List Point) (w : FbWrite) : w ∈ pixelWrites c ps ↔
    ∃ p ∈ ps, c.InBounds p.x p.y ∧ w = .orBit (c.byteIndex p.x p.y) (bitOffset p.y) := by
  simp only [pixelWrites, List.mem_filterMap, Config.setPixel]
  refine exists_congr fun p => and_congr_right fun _ => ?_
  split
  · exact ⟨fun e => ⟨‹_›, (Option.some.inj e).symm⟩, fun e => congrArg some e.2.symm⟩
  · exact ⟨fun e => (nomatch e), fun e => absurd e.1 ‹_›⟩

theorem pixelWrites_cons (c : Config) (p : Point) (ps : List Point) : pixelWrites c (p :: ps) =
    if c.InBounds p.x p.y then .orBit (c.byteIndex p.x p.y) (bitOffset p.y) :: pixelWrites c ps
    else pixelWrites c ps := by
  unfold pixelWrites Config.setPixel
  rw [List.filterMap_cons]
  split <;> split at * <;> simp_all

/-- Every SetPixel call writes to a byte that exists, and none to byte 0 (R58, R106). -/
theorem pixelWrites_index {c : Config} (h : c.GeometryWf) (ps : List Point) (w : FbWrite) (hw : w ∈ pixelWrites c ps) :
    1 ≤ w.index ∧ w.index < c.fbLen := by
  obtain ⟨p, -, hb, rfl⟩ := (mem_pixelWrites c ps w).1 hw
  exact Config.byteIndex_range h hb

/-- `drawPixels` completes in every geometry that is well-formed, and writes only the framebuffer. -/
theorem drawPixels_next (ps : List Point) (s : State) (h : s.cfg.GeometryWf) :
    drawPixels ps s = .next (s.withFb (applyWrites s.resetEpoch s.fb (pixelWrites s.cfg ps))) :=
  commit_next _ _ fun w hw => (pixelWrites_index h ps w hw).2

/-- The bit an OR-write sets. -/
theorem getLsbD_setBit (v : Byte) (b k : Nat) (hk : k < 8) :
    (v ||| (1 : Byte) <<< b).getLsbD k = (v.getLsbD k || decide (k = b)) := by
  rw [BitVec.getLsbD_or, BitVec.getLsbD_shiftLeft]
  congr 1
  by_cases h : k < b
  · simp [h, show k ≠ b by omega]
  · by_cases h' : k = b
    · subst h'; simp [hk]
    · simp [hk, h, h', show k - b ≠ 0 by omega]

/-- After SetPixel calls a bit is set if it was set before, or if a point in bounds names it (R59, R100). -/
theorem getLsbD_pixelWrites (c : Config) (ps : List Point) (epoch : Nat) (m : Memory) (i k : Nat) (hk : k < 8) :
    ((applyWrites epoch m (pixelWrites c ps)).byte epoch i).getLsbD k = true ↔
      (m.byte epoch i).getLsbD k = true ∨
        ∃ p ∈ ps, c.InBounds p.x p.y ∧ c.byteIndex p.x p.y = i ∧ bitOffset p.y = k := by
  induction ps generalizing m with
  | nil => simp [pixelWrites]
  | cons p ps ih =>
    by_cases hp : c.InBounds p.x p.y
    · rw [pixelWrites_cons, if_pos hp, applyWrites_cons, ih, byte_apply_orBit, List.exists_mem_cons_iff]
      by_cases hi : c.byteIndex p.x p.y = i
      · rw [if_pos hi, hi, getLsbD_setBit _ _ _ hk, Bool.or_eq_true, decide_eq_true_eq, or_assoc]
        refine or_congr_right (or_congr_left ?_)
        exact ⟨fun e => ⟨hp, rfl, e.symm⟩, fun e => e.2.2.symm⟩
      · rw [if_neg hi]
        refine or_congr_right ?_
        simp [hi]
    · rw [pixelWrites_cons, if_neg hp, ih, List.exists_mem_cons_iff]
      simp [hp]

/-- SetCursor leaves the cursor in range, at the clamped values (R180). -/
theorem setCursor_eq {c : Config} (h : c.wf = true) (col row : Int) :
    ((setCursor c col row).col.toNat : Int) = max 0 (min col (c.width - 1)) ∧
      ((setCursor c col row).row.toNat : Int) = max 0 (min row (c.pages - c.glyphPages)) := by
  obtain ⟨hw1, hw2, -⟩ := Config.geometry_of_wf h
  have hp := Config.pages_le (Config.geometry_of_wf h)
  obtain ⟨hg1, hg2⟩ := Config.pages_of_wf h
  simp only [setCursor, BitVec.toNat_ofInt]
  rw [clamp_eq _ _ _ (by omega), clamp_eq _ _ _ (by omega)]
  constructor <;> omega

/-- The cursor's range (R23, R24). -/
abbrev CursorInRange (c : Config) (cur : Cursor) : Prop :=
  cur.col.toNat < c.width ∧ cur.row.toNat + c.glyphPages ≤ c.pages

theorem setCursor_inRange {c : Config} (h : c.wf = true) (col row : Int) : CursorInRange c (setCursor c col row) := by
  obtain ⟨h1, h2⟩ := setCursor_eq h col row
  obtain ⟨hw1, -⟩ := Config.geometry_of_wf h
  obtain ⟨-, hg⟩ := Config.pages_of_wf h
  constructor <;> omega

/-- What AdvanceLine can answer (R182). -/
theorem advanceLine_eq_some {c : Config} (h : c.wf = true) (cur cur1 : Cursor) (he : advanceLine c cur = some cur1) :
    cur1.col.toNat = 0 ∧ cur1.row.toNat = cur.row.toNat + c.glyphPages ∧ CursorInRange c cur1 := by
  have hp := Config.pages_le (Config.geometry_of_wf h)
  obtain ⟨hw1, -⟩ := Config.geometry_of_wf h
  unfold advanceLine at he
  split at he
  · cases he
  · obtain rfl := Option.some.inj he
    have : (BitVec.ofNat 16 (cur.row.toNat + c.glyphPages)).toNat = cur.row.toNat + c.glyphPages := by
      rw [BitVec.toNat_ofNat]; omega
    refine ⟨rfl, this, ?_, ?_⟩
    · show (0 : BitVec 16).toNat < c.width; simp; omega
    · show (BitVec.ofNat 16 (cur.row.toNat + c.glyphPages)).toNat + c.glyphPages ≤ c.pages; omega

/-- The writes of a blit: one for each column of each page that is on the canvas (R184). -/
theorem mem_blitWrites (c : Config) (cur : Cursor) (o w : Nat) (x : FbWrite) : x ∈ blitWrites c cur o w ↔
    ∃ p i, p < c.glyphPages ∧ i < w ∧ cur.col.toNat + i < c.width ∧
      x = .overwrite (c.pageIndex (cur.col.toNat + i) (cur.row.toNat + p)) (c.romByte (o + p * w + i)) := by
  simp only [blitWrites, List.mem_flatMap, List.mem_range, List.mem_filterMap]
  constructor
  · rintro ⟨p, hp, i, hi, he⟩
    split at he
    · exact ⟨p, i, hp, hi, ‹_›, (Option.some.inj he).symm⟩
    · cases he
  · rintro ⟨p, i, hp, hi, hx, rfl⟩
    exact ⟨p, hp, i, hi, by rw [if_pos hx]⟩

/-- Every write of a blit from a cursor in range goes to a byte that exists, and none to byte 0 (R190). -/
theorem blitWrites_index (c : Config) (cur : Cursor) (o w : Nat) (h : CursorInRange c cur) (x : FbWrite)
    (hx : x ∈ blitWrites c cur o w) : 1 ≤ x.index ∧ x.index < c.fbLen := by
  obtain ⟨p, i, hp, -, hi, rfl⟩ := (mem_blitWrites c cur o w x).1 hx
  exact c.pageIndex_range _ _ hi (by have := h.2; omega)

/-- After a blit, each glyph byte on the canvas is where its column and page say, whatever was there before (R184, R191). -/
theorem read_blitWrites (c : Config) (cur : Cursor) (o w epoch : Nat) (m : Memory) (p i : Nat) (hp : p < c.glyphPages)
    (hi : i < w) (hx : cur.col.toNat + i < c.width) :
    (applyWrites epoch m (blitWrites c cur o w)).read (c.pageIndex (cur.col.toNat + i) (cur.row.toNat + p)) =
      some (c.romByte (o + p * w + i)) := by
  refine read_applyWrites_overwrite _ _ _ _ _ (fun x hm he => ?_)
    (.inr ⟨_, (mem_blitWrites c cur o w _).2 ⟨p, i, hp, hi, hx, rfl⟩, rfl⟩)
  obtain ⟨q, j, -, -, hj, rfl⟩ := (mem_blitWrites c cur o w x).1 hm
  obtain ⟨h1, h2⟩ := c.pageIndex_inj hj hx he
  obtain rfl : q = p := by omega
  obtain rfl : j = i := by omega
  rfl

/-- The cursor a glyph is drawn at is in range (R187). -/
theorem wrapCursor_inRange {c : Config} (h : c.wf = true) (w : Nat) (cur cur1 : Cursor) (hc : CursorInRange c cur)
    (he : wrapCursor c w cur = some cur1) : CursorInRange c cur1 := by
  unfold wrapCursor at he
  split at he
  · exact (advanceLine_eq_some h cur cur1 he).2.2
  · exact Option.some.inj he ▸ hc

/-- What one glyph step can answer: the cursor it is drawn at, the writes of the blit there, and the cursor after
(R187). -/
theorem glyphStep_eq_some (c : Config) (ch : Byte) (next : Option Byte) (cur cur2 : Cursor) (ws : List FbWrite) :
    glyphStep c ch next cur = some (cur2, ws) ↔
      ∃ cur1, wrapCursor c (c.glyphWidth ch).toNat cur = some cur1 ∧
        cur2 = setCursor c (cur1.col.toNat + glyphAdvance c (c.glyphWidth ch).toNat next) cur1.row.toNat ∧
        ws = blitWrites c cur1 (c.glyphByteOffset ch) (c.glyphWidth ch).toNat := by
  simp only [glyphStep]
  cases wrapCursor c (c.glyphWidth ch).toNat cur with
  | none => simp
  | some cur1 => simp [eq_comm]

/-- TEXT from a cursor in range: the cursor stays in range, and every write goes to a byte that exists, none to byte 0
(R25, R190). -/
theorem textRun_range {c : Config} (h : c.wf = true) (str : List Byte) (cur : Cursor) (hc : CursorInRange c cur) :
    CursorInRange c (textRun c str cur).1 ∧ ∀ w ∈ (textRun c str cur).2, 1 ≤ w.index ∧ w.index < c.fbLen := by
  induction str generalizing cur with
  | nil => exact ⟨hc, by simp [textRun]⟩
  | cons ch rest ih =>
    unfold textRun
    split
    · exact ih _ (setCursor_inRange h _ _)
    · split
      · cases hg : glyphStep c ch rest.head? cur with
        | none => exact ⟨hc, by simp⟩
        | some r =>
          obtain ⟨cur2, ws⟩ := r
          obtain ⟨cur1, hw, rfl, rfl⟩ := (glyphStep_eq_some c ch rest.head? cur cur2 ws).1 hg
          have hr := ih _ (setCursor_inRange h (cur1.col.toNat + glyphAdvance c (c.glyphWidth ch).toNat rest.head?)
            cur1.row.toNat)
          refine ⟨hr.1, fun w hm => ?_⟩
          rcases List.mem_append.1 hm with hm | hm
          · exact blitWrites_index c cur1 _ _ (wrapCursor_inRange h _ cur cur1 hc hw) w hm
          · exact hr.2 w hm
      · exact ih _ hc

/-- No write of TEXT goes to byte 0, wherever the cursor is (R52). -/
theorem textRun_index_pos (c : Config) (str : List Byte) (cur : Cursor) : ∀ w ∈ (textRun c str cur).2, 1 ≤ w.index := by
  induction str generalizing cur with
  | nil => simp [textRun]
  | cons ch rest ih =>
    unfold textRun
    split
    · exact ih _
    · split
      · cases hg : glyphStep c ch rest.head? cur with
        | none => simp
        | some r =>
          obtain ⟨cur2, ws⟩ := r
          obtain ⟨cur1, -, -, rfl⟩ := (glyphStep_eq_some c ch rest.head? cur cur2 ws).1 hg
          intro w hm
          rcases List.mem_append.1 hm with hm | hm
          · obtain ⟨p, i, -, -, -, rfl⟩ := (mem_blitWrites c cur1 _ _ w).1 hm
            simp only [FbWrite.index, Config.pageIndex]; omega
          · exact ih _ w hm
      · exact ih _

/-- A retired outcome is a next state just when the meaning's is. -/
theorem retire_eq_next (k : Nat) (r : Result) (t : State) :
    retire k r = .next t ↔ ∃ u, r = .next u ∧ t = retireCommand k u := by
  cases r <;> simp [retire, eq_comm]

end Sys2Proof.Machine
end

