-- ==== Sys2Proof/Laws/PerInstr.lean ====
section
/-! SUPPORT. Two facts about each command as syntax: its encoding has the length of R82, and begins with a legal header of its
own opcode (R81, R84, R85). -/

namespace Sys2Proof.Laws

/-- The number of words encoded is `len(cmd)` (R82). -/
def EncodeLength.Statement (i : Instr) : Prop := (encode i).length = i.lengthWords

theorem EncodeLength.addr (x y : Int) : EncodeLength.Statement (.addr x y) := length_encode _
theorem EncodeLength.clear : EncodeLength.Statement .clear := length_encode _
theorem EncodeLength.pset (x y : Int) : EncodeLength.Statement (.pset x y) := length_encode _
theorem EncodeLength.line (x1 y1 x2 y2 : Int) : EncodeLength.Statement (.line x1 y1 x2 y2) := length_encode _
theorem EncodeLength.circle (cx cy r : Int) : EncodeLength.Statement (.circle cx cy r) := length_encode _
theorem EncodeLength.polygon (vs : List Point) : EncodeLength.Statement (.polygon vs) := length_encode _
theorem EncodeLength.polyline (vs : List Point) : EncodeLength.Statement (.polyline vs) := length_encode _
theorem EncodeLength.setcur (col row : Int) : EncodeLength.Statement (.setcur col row) := length_encode _
theorem EncodeLength.nextline : EncodeLength.Statement .nextline := length_encode _
theorem EncodeLength.text (s : List Byte) : EncodeLength.Statement (.text s) := length_encode _
theorem EncodeLength.gquery (c : Byte) : EncodeLength.Statement (.gquery c) := length_encode _

/-- The opcode of a command (R84). -/
def instrOpcode : Instr → Opcode
  | .addr _ _ => .addr
  | .clear => .clear
  | .pset _ _ => .pset
  | .line _ _ _ _ => .line
  | .circle _ _ _ => .circle
  | .polygon _ => .polygon
  | .polyline _ => .polyline
  | .setcur _ _ => .setcur
  | .nextline => .nextline
  | .text _ => .text
  | .gquery _ => .gquery

/-- The first word encoded is a legal header with the command's opcode (R81, R84). -/
def EncodeHeader.Statement (i : Instr) : Prop :=
  ∃ h rest, encode i = h :: rest ∧ headerRsv h = 0 ∧ opcodeOf (headerOp h) = some (instrOpcode i)

theorem EncodeHeader.addr (x y : Int) : EncodeHeader.Statement (.addr x y) := ⟨_, _, rfl, rfl, rfl⟩
theorem EncodeHeader.clear : EncodeHeader.Statement .clear := ⟨_, _, rfl, rfl, rfl⟩
theorem EncodeHeader.pset (x y : Int) : EncodeHeader.Statement (.pset x y) := ⟨_, _, rfl, rfl, rfl⟩
theorem EncodeHeader.line (x1 y1 x2 y2 : Int) : EncodeHeader.Statement (.line x1 y1 x2 y2) := ⟨_, _, rfl, rfl, rfl⟩
theorem EncodeHeader.circle (cx cy r : Int) : EncodeHeader.Statement (.circle cx cy r) := ⟨_, _, rfl, rfl, rfl⟩
theorem EncodeHeader.polygon (vs : List Point) : EncodeHeader.Statement (.polygon vs) := ⟨_, _, rfl, rfl, rfl⟩
theorem EncodeHeader.polyline (vs : List Point) : EncodeHeader.Statement (.polyline vs) := ⟨_, _, rfl, rfl, rfl⟩
theorem EncodeHeader.setcur (col row : Int) : EncodeHeader.Statement (.setcur col row) := ⟨_, _, rfl, rfl, rfl⟩
theorem EncodeHeader.nextline : EncodeHeader.Statement .nextline := ⟨_, _, rfl, rfl, rfl⟩
theorem EncodeHeader.text (s : List Byte) : EncodeHeader.Statement (.text s) := ⟨_, _, rfl, rfl, rfl⟩
theorem EncodeHeader.gquery (c : Byte) : EncodeHeader.Statement (.gquery c) := ⟨_, _, rfl, rfl, rfl⟩

end Sys2Proof.Laws
end

