-- ==== Sys2Proof/Laws/Step.lean ====
section
/-! SUPPORT. What a step can do, said once; and what each command can answer. -/

namespace Sys2Proof.Machine

@[simp] theorem hostReset_eq (s : State) : hostReset s = State.resetOf s.cfg (s.resetEpoch + 1) := rfl

/-- A step that answers a state either raises IllegalCommand or executes a whole command (R86, R222). -/
theorem step_eq_next (s t : State) : step s = .next t ↔ s.cfg.wf = true ∧ s.err = false ∧
    ((∃ cause h, decode s.queue = .illegal cause h ∧ t = raiseIllegalCommand cause h s) ∨
      ∃ i k u, decode s.queue = .command i k ∧ exec i (beginCommand s) = .next u ∧ t = retireCommand k u) := by
  unfold step
  by_cases hw : s.cfg.wf = true
  · by_cases he : s.err = true
    · simp [hw, he]
    · rw [if_pos hw, if_neg he]
      simp only [hw, Bool.not_eq_true _ ▸ he, true_and]
      cases hd : decode s.queue with
      | noWord => simp
      | illegal c h => simp [eq_comm]
      | incomplete => simp
      | command i k =>
        simp only [retire_eq_next]
        simp
  · simp [hw]

/-- What a command that only calls SetPixel answers: its OR-writes and nothing else (R59, R64). -/
theorem exec_drawing (i : Instr) (ps : List Point) (s : State) (h : exec i s = drawPixels ps s) (t : State)
    (ht : exec i s = .next t) : t = s.withFb (applyWrites s.resetEpoch s.fb (pixelWrites s.cfg ps)) :=
  ((commit_eq_next _ _ _).1 (h.symm.trans ht)).2

/-- What TEXT answers (R185). -/
theorem exec_text_eq_next (str : List Byte) (s t : State) : exec (.text str) s = .next t ↔
    (∀ w ∈ (textRun s.cfg str s.cursor).2, w.index < s.cfg.fbLen) ∧
      t = (s.withCursor (textRun s.cfg str s.cursor).1).withFb
        (applyWrites s.resetEpoch s.fb (textRun s.cfg str s.cursor).2) :=
  commit_eq_next _ _ _

/-- A header that is illegal stays illegal, and a command that is all there stays that command, when words follow. -/
theorem decode_illegal_append (ws more : List Word) (c : IllegalCause) (h : Word) (hd : decode ws = .illegal c h) :
    ws.head? = some h ∧ decode (ws ++ more) = .illegal c h := by
  cases ws with
  | nil => cases hd
  | cons a ws =>
    by_cases h0 : headerRsv a = 0
    · cases ho : opcodeOf (headerOp a) with
      | none =>
        have key : ∀ l, decode (a :: l) = .illegal .unassignedOpcode a := fun l => by
          rw [decode, if_neg (not_not.2 h0), ho]
        rw [key] at hd
        obtain ⟨rfl, rfl⟩ := Decoded.illegal.inj hd
        exact ⟨rfl, key _⟩
      | some op =>
        rw [decode_cons a ws op h0 ho] at hd
        split at hd
        · cases hd
        · split at hd <;> cases hd
    · have key : ∀ l, decode (a :: l) = .illegal .reservedHeaderBits a := fun l => by rw [decode, if_pos h0]
      rw [key] at hd
      obtain ⟨rfl, rfl⟩ := Decoded.illegal.inj hd
      exact ⟨rfl, key _⟩

end Sys2Proof.Machine
end

