-- ==== Sys2Proof/Machine/Assembler.lean ====
section
/-! DEFINITION. The assembler syntax of R88: the line a command is written as. Its words are `assemble` of `Decode.lean`. -/

namespace Sys2Proof.Machine

/-- A number in decimal, optionally negative (R88). -/
def asmInt : Int → List Char
  | .ofNat n => Nat.toDigits 10 n
  | .negSucc n => '-' :: Nat.toDigits 10 (n + 1)

/-- Numbers separated by commas (R88). -/
def asmInts (vs : List Int) : List Char := (", ".toList).intercalate (vs.map asmInt)

/-- A vertex in parentheses (R88). -/
def asmPoint (p : Point) : List Char := '(' :: asmInts [p.x, p.y] ++ [')']

/-- A character of a TEXT string: itself, or `\xHH` for a byte that is no printable ASCII character, a quotation mark or a
backslash (R88; which characters are escaped is log entry 10). -/
def asmChar (b : Byte) : List Char :=
  if 0x20 ≤ b.toNat ∧ b.toNat ≤ 0x7E ∧ b.toNat ≠ 0x22 ∧ b.toNat ≠ 0x5C then [Char.ofNat b.toNat]
  else ['\\', 'x', Nat.digitChar (b.toNat / 16), Nat.digitChar (b.toNat % 16)]

/-- The line of a command (R88). -/
def asmLine : Instr → List Char
  | .addr x y => "ADDR ".toList ++ asmInts [x, y]
  | .clear => "CLEAR".toList
  | .pset x y => "PSET ".toList ++ asmInts [x, y]
  | .line x1 y1 x2 y2 => "LINE ".toList ++ asmInts [x1, y1, x2, y2]
  | .circle cx cy r => "CIRCLE ".toList ++ asmInts [cx, cy, r]
  | .polygon vs => "POLYGON ".toList ++ (", ".toList).intercalate (vs.map asmPoint)
  | .polyline vs => "POLYLINE ".toList ++ (", ".toList).intercalate (vs.map asmPoint)
  | .setcur col row => "SETCUR ".toList ++ asmInts [col, row]
  | .nextline => "NEXTLINE".toList
  | .text s => "TEXT \"".toList ++ s.flatMap asmChar ++ ['"']
  | .gquery c => "GQUERY ".toList ++ asmInt c.toNat

end Sys2Proof.Machine
end

