-- ==== Sys2Proof/Tests/Slice0.lean ====
section
/-! SUPPORT. Tests: expected results are those of `95_test_vectors.md` (or worked out by hand from the rule named); and, for
each statement with hypotheses, a witness that they can hold together. -/

namespace Sys2Proof.Tests

open Sys2Proof Sys2Proof.Machine

/-! ### Small machines -/

/-- F5 on 128 x 64 (`95_test_vectors.md` section 0). -/
def f5 : State := State.reset

/-- V2 on 16 x 32 (`95_test_vectors.md` section 0). -/
def v2Config : Config where
  width := 16
  height := 32
  clearHdr := .zero
  glyphs :=
    { font := .variable [3, 1, 0] [0, 6, 8] 4, firstChar := 0x41, lastChar := 0x43, glyphHeightPages := 2,
      horizontalSeparation := 2, bitmapData := [0xA0, 0xA1, 0xA2, 0xB0, 0xB1, 0xB2, 0xC0, 0xD0] }

def v2 : State := State.resetOf v2Config 0

/-- A fixed font of one page, 'A' and 'B' 5 columns wide, separation 1, on 16 x 16. -/
def fixedConfig : Config where
  width := 16
  height := 16
  clearHdr := .keep
  glyphs :=
    { font := .fixed 5, firstChar := 0x41, lastChar := 0x42, glyphHeightPages := 1, horizontalSeparation := 1,
      bitmapData := [1, 2, 3, 4, 5, 6, 7, 8, 9, 10] }

def small : State := State.resetOf fixedConfig 0

/-- One column, one page: `N = 2`. -/
def tiny (hdr : ClearHdr) : State :=
  { State.resetOf { fixedConfig with width := 1, height := 8, clearHdr := hdr } 0 with fb := [(0, 0xAA), (1, 0xAA)] }

/-- The state a command leaves. -/
def after (i : Instr) (s : State) : State :=
  match exec i s with
  | .next t => t
  | _ => s

/-- The state a step leaves. -/
def stepped (s : State) : State :=
  match step s with
  | .next t => t
  | _ => s

/-- `s` with zeros listed at the indices named. -/
def zeros (s : State) (is : List Nat) : State := { s with fb := is.map fun i => (i, 0) }

/-- The bytes of `s` at the indices named. -/
def bytes (s : State) (is : List Nat) : List Nat := is.map fun i => (s.fbByte i).toNat

/-- The cursor of `s`. -/
def cursorOf (s : State) : Nat × Nat := (s.cursor.col.toNat, s.cursor.row.toNat)

/-- `s` with its cursor at a column and a page row. -/
def at' (s : State) (col row : Nat) : State := { s with cursor := ⟨BitVec.ofNat 16 col, BitVec.ofNat 16 row⟩ }

/-! ### Well-formedness: each check refuses an ill-formed term (R6, R83, R88, R163) -/

theorem test_wf_addr : Instr.wf (.addr 32768 0) = false := by decide
theorem test_wf_pset : Instr.wf (.pset 0 (-32769)) = false := by decide
theorem test_wf_line : Instr.wf (.line 0 0 0 40000) = false := by decide
theorem test_wf_circle : Instr.wf (.circle 0 0 32768) = false := by decide
theorem test_wf_polygon_vertex : Instr.wf (.polygon [⟨0, 0⟩, ⟨0, 32768⟩]) = false := by decide
theorem test_wf_polyline_vertex : Instr.wf (.polyline [⟨-32769, 0⟩]) = false := by decide
theorem test_wf_setcur : Instr.wf (.setcur 0 32768) = false := by decide
theorem test_wf_counts (i : Instr) (h : i = .polygon (List.replicate 65536 ⟨0, 0⟩) ∨
    i = .polyline (List.replicate 65536 ⟨0, 0⟩) ∨ i = .text (List.replicate 65536 0)) : i.wf = false := by
  rcases h with rfl | rfl | rfl <;> simp only [Instr.wf, List.length_replicate] <;> rfl
theorem test_assemble_refuses : assemble (.pset 32768 0) = none := by decide
theorem test_assemble_P1 : assemble (.pset 5 13) = some [0x0003, 0x0005, 0x000D] := by decide
theorem test_config_wf : Config.conventional.wf = true ∧ v2Config.wf = true ∧ fixedConfig.wf = true := by decide
theorem test_config_height : ({ v2Config with height := 33 } : Config).wf = false := by decide
theorem test_config_width : ({ v2Config with width := 0 } : Config).wf = false := by decide
theorem test_config_range :
    ({ v2Config with glyphs := { v2Config.glyphs with lastChar := 0x40 } } : Config).wf = false := by decide
theorem test_config_pages :
    ({ v2Config with glyphs := { v2Config.glyphs with glyphHeightPages := 5 } } : Config).wf = false := by decide
theorem test_config_tables :
    ({ v2Config with glyphs := { v2Config.glyphs with lastChar := 0x44 } } : Config).wf = false := by decide
theorem test_config_rom :
    ({ v2Config with glyphs := { v2Config.glyphs with bitmapData := [1, 2, 3] } } : Config).wf = false := by decide

/-! ### Decoding (R81 to R87, V-DECODE) -/

theorem test_decode_illegal : decode [0x0103] = .illegal .reservedHeaderBits 0x0103 ∧
    decode [0x0000] = .illegal .unassignedOpcode 0x0000 ∧ decode [0x000C] = .illegal .unassignedOpcode 0x000C ∧
    decode [0x00FF] = .illegal .unassignedOpcode 0x00FF ∧ decode [0xFF0C] = .illegal .reservedHeaderBits 0xFF0C ∧
    decode [0x8002] = .illegal .reservedHeaderBits 0x8002 := by decide
theorem test_decode_incomplete : decode [0x000A] = .incomplete ∧ decode [0x000A, 0x0003, 0x4241] = .incomplete ∧
    decode [0x0006, 0x0001, 0x0003] = .incomplete ∧ decode [0x0004, 0x0001, 0x0002] = .incomplete := by decide
theorem test_decode_addr : decode [0x0001, 0x0005, 0x000D] = .command (.addr 5 13) 3 := by decide
theorem test_decode_line : decode [0x0004, 0xFFFB, 0xFFFB, 0xFFFF, 0xFFF7, 0x0002] =
    .command (.line (-5) (-5) (-1) (-9)) 5 := by decide
theorem test_decode_polyline :
    decode [0x0007, 0x0002, 0x0006, 0x0000, 0x0008, 0x0001] = .command (.polyline [⟨6, 0⟩, ⟨8, 1⟩]) 6 := by decide
theorem test_decode_text :
    decode [0x000A, 0x0003, 0x4241, 0x9943] = .command (.text [0x41, 0x42, 0x43]) 4 := by decide
theorem test_decode_gquery : decode [0x000B, 0xFF43] = .command (.gquery 0x43) 2 := by decide
theorem test_table_words : decodeTableWord 16 0x0001 = some (.addr 0 0) ∧ decodeTableWord 16 0x0002 = some .clear ∧
    decodeTableWord 16 0x0003 = some (.pset 0 0) ∧ decodeTableWord 16 0x0004 = some (.line 0 0 0 0) ∧
    decodeTableWord 16 0x0005 = some (.circle 0 0 0) ∧ decodeTableWord 16 0x0006 = some (.polygon []) ∧
    decodeTableWord 16 0x0007 = some (.polyline []) ∧ decodeTableWord 16 0x0008 = some (.setcur 0 0) ∧
    decodeTableWord 16 0x0009 = some .nextline ∧ decodeTableWord 16 0x000A = some (.text []) ∧
    decodeTableWord 16 0x000B = some (.gquery 0) ∧ decodeTableWord 16 0x000C = none ∧
    decodeTableWord 32 0x00010006 = some (.polygon [⟨0, 0⟩]) := by decide

/-- On every row the command is the next step after reset, and consumes its words. -/
theorem test_fetch_after_reset :
    [(1, 3), (2, 1), (3, 3), (4, 5), (5, 4), (6, 2), (7, 2), (8, 3), (9, 1), (10, 2), (11, 2)].all (fun r =>
      match step (State.reset.withFetchWord 16 r.1) with
      | .next t => decide (t.sp.toNat = r.2 ∧ t.queue = [])
      | _ => false) = true := by
  decide

/-! ### Assembler syntax (R88) -/

theorem test_asm_line : asmLine (.line (-5) (-5) (-1) (-9)) = "LINE -5, -5, -1, -9".toList := by decide
theorem test_asm_polyline : asmLine (.polyline [⟨6, 0⟩, ⟨8, 1⟩]) = "POLYLINE (6, 0), (8, 1)".toList := by decide
theorem test_asm_text : asmLine (.text [0x41, 0x01]) = "TEXT \"A\\x01\"".toList := by decide

/-! ### Framebuffer commands -/

/-- E9. -/
theorem test_addr_in_bounds : (after (.addr 5 13) f5).avalid = true ∧ (after (.addr 5 13) f5).aidx = 134 ∧
    (after (.addr 5 13) f5).abit = 5 := by decide

/-- V-ADDR: `x = W` is out of bounds, from an earlier answer that was not. -/
theorem test_addr_out_of_bounds : (after (.addr 128 0) (after (.addr 127 63) f5)).avalid = false ∧
    (after (.addr 128 0) (after (.addr 127 63) f5)).aidx = 0 ∧
    (after (.addr 128 0) (after (.addr 127 63) f5)).abit = 0 := by decide

/-- V-CLEAR. -/
theorem test_clear_zero : bytes (after .clear (tiny .zero)) [0, 1] = [0, 0] := by decide
theorem test_clear_keep : bytes (after .clear (tiny .keep)) [0, 1] = [0xAA, 0] := by decide

/-- V-PSET: the OR keeps bit 5. -/
theorem test_pset_ors : bytes (after (.pset 5 8) (after (.pset 5 13) (zeros f5 [134]))) [134] = [0x21] := by decide

/-- V-PSET: the corners' neighbours off the canvas are no-ops. -/
theorem test_pset_out_of_bounds : after (.pset (-1) 0) f5 = f5 ∧ after (.pset 128 0) f5 = f5 ∧
    after (.pset 0 64) f5 = f5 := ⟨rfl, rfl, rfl⟩

/-! ### Rasterizer commands -/

/-- V-LINE: the points in order, from either end. -/
theorem test_line_points : linePoints f5.cfg 6 0 0 3 =
    [⟨0, 3⟩, ⟨1, 2⟩, ⟨2, 2⟩, ⟨3, 1⟩, ⟨4, 1⟩, ⟨5, 0⟩, ⟨6, 0⟩] := by decide

/-- V-LINE: both endpoints clamp to (0, 0). -/
theorem test_line_clamped : bytes (after (.line (-5) (-5) (-1) (-9)) (zeros f5 [1, 2])) [1, 2] = [0x01, 0] := by decide

/-- V-CIRCLE: the calls of `r = 2`, in order. -/
theorem test_circle_calls : circlePoints 10 10 2 = [⟨12, 10⟩, ⟨10, 12⟩, ⟨8, 10⟩, ⟨10, 8⟩, ⟨12, 11⟩, ⟨9, 12⟩, ⟨8, 9⟩,
    ⟨11, 8⟩, ⟨11, 12⟩, ⟨8, 11⟩, ⟨9, 8⟩, ⟨12, 9⟩] := by decide

/-- V-CIRCLE: the centre is not clamped. -/
theorem test_circle_off_canvas : bytes (after (.circle (-1) 5 1) (zeros f5 [1, 2])) [1, 2] = [0x20, 0] := by decide

/-- E5. -/
theorem test_polygon_square : bytes (after (.polygon [⟨0, 0⟩, ⟨4, 0⟩, ⟨4, 4⟩, ⟨0, 4⟩]) (zeros f5 [1, 2, 3, 4, 5]))
    [1, 2, 3, 4, 5] = [0x1F, 0x11, 0x11, 0x11, 0x1F] := by decide
theorem test_polygon_one_vertex : after (.polygon [⟨3, 3⟩]) f5 = f5 := rfl

/-- E5. -/
theorem test_polyline_square : bytes (after (.polyline [⟨0, 0⟩, ⟨4, 0⟩, ⟨4, 4⟩, ⟨0, 4⟩]) (zeros f5 [1, 2, 3, 4, 5]))
    [1, 2, 3, 4, 5] = [0x11, 0x11, 0x11, 0x11, 0x1F] := by decide

/-! ### Glyph table -/

/-- V-GQUERY, F5: 'C', and a code out of range after it. -/
theorem test_gquery_fixed : (after (.gquery 0x43) f5).gprint = true ∧ (after (.gquery 0x43) f5).gwidth = 5 ∧
    (after (.gquery 0x43) f5).goff = 10 ∧ (after (.gquery 0x5B) (after (.gquery 0x43) f5)).goff = 0 := by decide

/-- V-GQUERY, V2: 'C' has width 0. -/
theorem test_gquery_variable : (after (.gquery 0x43) v2).gprint = true ∧ (after (.gquery 0x43) v2).gwidth = 0 ∧
    (after (.gquery 0x43) v2).goff = 8 := by decide

/-! ### Text engine -/

/-- V-SETCUR. -/
theorem test_setcur : cursorOf (after (.setcur 200 (-3)) f5) = (127, 0) ∧
    cursorOf (after (.setcur (-1) 100) f5) = (0, 7) ∧ cursorOf (after (.setcur 3 9) v2) = (3, 2) := by decide

/-- V-NEXTLINE. -/
theorem test_nextline_advances : cursorOf (after .nextline (at' f5 40 6)) = (0, 7) ∧
    (after .nextline { at' f5 40 6 with noline := true }).noline = false := by decide
theorem test_nextline_fails : cursorOf (after .nextline (at' v2 9 1)) = (9, 1) ∧
    (after .nextline (at' v2 9 1)).noline = true := by decide

/-- V-TEXT, V2: "ABC A" from the origin. -/
theorem test_text_variable :
    bytes (after (.text [0x41, 0x42, 0x43, 0x20, 0x41]) v2) [1, 2, 3, 17, 18, 19, 6, 22, 13, 15, 29, 31] =
      [0xA0, 0xA1, 0xA2, 0xB0, 0xB1, 0xB2, 0xC0, 0xD0, 0xA0, 0xA2, 0xB0, 0xB2] ∧
    cursorOf (after (.text [0x41, 0x42, 0x43, 0x20, 0x41]) v2) = (15, 0) := by decide

/-- V-TEXT, F5: a glyph that ends exactly at the edge wraps (conflict C2); on the last line it stops the string. -/
theorem test_text_wraps : bytes (after (.text [0x41]) (at' f5 123 0)) [129, 133] = [0x01, 0x05] ∧
    cursorOf (after (.text [0x41]) (at' f5 123 0)) = (6, 1) ∧
    after (.text [0x41, 0x42]) (at' f5 126 7) = at' f5 126 7 := by decide

/-! ### The step and the host's side -/

/-- P5: the fault record and STATUS. -/
def p5 : State := { f5 with queue := [0x010C, 0x0003, 0x0002, 0x0002], sp := 4 }

theorem test_illegal_header : (stepped p5).err = true ∧ (stepped p5).errCause = 1 ∧ (stepped p5).errWord = 0x010C ∧
    (stepped p5).errPos = 4 ∧ (stepped p5).sp = 4 ∧ statusWord (stepped p5) = 0x0024 := by decide
theorem test_halted : (step (stepped p5) matches .fault .halted) = true := by decide

/-- P6: the incomplete LINE has no step; two more words complete it. -/
theorem test_incomplete : (step { f5 with queue := [0x0004, 0, 0] } matches .fault .incompleteCommand) = true ∧
    (stepped (hostSend [0x0003, 0x0001] { zeros f5 [1, 2, 3, 4] with queue := [0x0004, 0, 0], sp := 4 })).sp = 9 := by
  decide

/-- P1: STATUS, HR3, HR4, HR5. -/
theorem test_host_registers : hostReadRegister 0 (after (.addr 5 13) f5) 0 = 0x0008 ∧
    hostReadRegister 0 (after (.addr 5 13) f5) 3 = 0x0086 ∧ hostReadRegister 0 (after (.addr 5 13) f5) 4 = 0 ∧
    hostReadRegister 0 (after (.addr 5 13) f5) 5 = 0x0005 := by decide

/-! ### Witnesses: the hypotheses of each statement hold together, clause by clause, at the ends of their ranges -/

/-- The answer is a state. -/
def isNext : Result → Bool
  | .next _ => true
  | _ => false

theorem after_eq (i : Instr) (s : State) (h : isNext (exec i s) = true) : exec i s = .next (after i s) := by
  unfold after
  split <;> simp_all [isNext]

theorem stepped_eq (s : State) (h : isNext (step s) = true) : step s = .next (stepped s) := by
  unfold stepped
  split <;> simp_all [isNext]

/-- `s` with words queued. -/
def fed (ws : List Word) (s : State) : State := { s with queue := ws }

theorem reset_between (c : Config) (epoch : Nat) (hc : c.wf = true) (hr : c.glyphPages ≤ c.pages) (hw : 0 < c.width) :
    BetweenCommands (State.resetOf c epoch) :=
  ⟨⟨hc, .nil, by simp [State.resetOf], by simpa [State.resetOf] using hw, by simpa [State.resetOf] using hr,
    by simp [AddressAnswer, State.resetOf], by simp [GlyphAnswer, State.resetOf], by simp [FaultRecord, State.resetOf]⟩,
    rfl⟩

theorem small_between : BetweenCommands small := reset_between _ _ (by decide) (by decide) (by decide)
theorem v2_between : BetweenCommands v2 := reset_between _ _ (by decide) (by decide) (by decide)
theorem f5_between : BetweenCommands f5 := reset_between _ _ (by decide) (by decide) (by decide)

theorem fed_inv (s : State) (ws : List Word) (h : BetweenCommands s) (he : s.err = false) : BetweenCommands (fed ws s) := by
  obtain ⟨⟨h1, h2, h3, h4, h5, h6, h7, h8⟩, hb⟩ := h
  exact ⟨⟨h1, h2, h3, h4, h5, h6, h7, by simpa [FaultRecord, fed, he] using h8⟩, hb⟩

/-- The cursor of a state with the invariant may stand anywhere in range. -/
theorem at_inv (s : State) (col row : Nat) (h : StateInv s) (hc : (BitVec.ofNat 16 col).toNat < s.cfg.width)
    (hr : (BitVec.ofNat 16 row).toNat + s.cfg.glyphPages ≤ s.cfg.pages) : StateInv (at' s col row) := by
  obtain ⟨h1, h2, h3, _, _, h6, h7, h8⟩ := h
  exact ⟨h1, h2, h3, hc, hr, h6, h7, h8⟩

/-- A state after ADDR, GQUERY and an illegal header, with a pixel listed: each clause of the invariant is met by values. -/
def marked : State :=
  { small with
    fb := [(0, 7), (32, 9)], avalid := true, aidx := 32, abit := 7, gprint := true, gwidth := 5, goff := 5
    err := true, errCause := 1, errWord := 0x0100, errPos := 4, sp := 4, queue := [0x0100, 0] }

theorem marked_between : BetweenCommands marked := by
  refine ⟨⟨by decide, by decide, by decide, by decide, by decide, ?_, ?_, ?_⟩, rfl⟩ <;>
    simp only [AddressAnswer, GlyphAnswer, FaultRecord] <;> decide

-- Encoding.
theorem witness_EveryCommandReadsItsWordsInOrder :
    (List.replicate 131070 (0 : Word)).length = 2 * (0xFFFF : Word).toNat ∧ ([] : List Word).length = 2 * (0 : Word).toNat ∧
    (List.replicate 32768 (0 : Word)).length = ((0xFFFF : Word).toNat + 1) / 2 ∧
    ([5] : List Word).length = ((1 : Word).toNat + 1) / 2 ∧ ([5] : List Word).length = ((2 : Word).toNat + 1) / 2 := by
  simp only [List.length_replicate, List.length_nil, List.length_cons]
  decide
theorem witness_AssembledWordsDecodeToTheirCommand :
    assemble (.line 32767 (-32768) (-1) 0) = some [0x0004, 0x7FFF, 0x8000, 0xFFFF, 0] ∧
    assemble (.polygon []) = some [0x0006, 0] ∧ assemble (.polyline [⟨-1, 2⟩]) = some [0x0007, 1, 0xFFFF, 2] ∧
    assemble (.text [0x41, 0xFF, 0x20]) = some [0x000A, 3, 0xFF41, 0x0020] ∧
    assemble (.gquery 0xFF) = some [0x000B, 0x00FF] := by decide
theorem witness_DecodedCommandEncodesToItsWords :
    decode [0x000A, 3, 0xFF41, 0x9920, 7] = .command (.text [0x41, 0xFF, 0x20]) 4 ∧
    decode [0x000B, 0x1241] = .command (.gquery 0x41) 2 ∧ decode [0x0008, 0x8000, 3] = .command (.setcur (-32768) 3) 3 := by
  decide
theorem witness_IllegalHeadersAreThoseOfTheCauseTable :
    decode [0x0100] = .illegal .reservedHeaderBits 0x0100 ∧ decode [0xFFFF] = .illegal .reservedHeaderBits 0xFFFF ∧
    decode [0x0000] = .illegal .unassignedOpcode 0 ∧ decode [0x000C] = .illegal .unassignedOpcode 0x000C ∧
    decode [0x00FF] = .illegal .unassignedOpcode 0x00FF ∧ decode [0x0001] = .incomplete ∧ decode [0x000B] = .incomplete := by
  decide
theorem witness_CommandLengthsDecideWhetherTheEngineWaits :
    [0x0001, 0x0002, 0x0003, 0x0004, 0x0005, 0x0006, 0x0007, 0x0008, 0x0009, 0x000A, 0x000B].map (BitVec.toNat (w := 16)) =
      [1, 2, 3, 4, 5, 6, 7, 8, 9, 10, 11] ∧
    decode [0x000B, 1] = .command (.gquery 1) 2 ∧ decode [0x000B] = .incomplete ∧
    decode [0x0008, 1] = .incomplete ∧ decode [0x0005, 1, 2] = .incomplete ∧ decode [0x0004, 1, 2, 3] = .incomplete ∧
    decode [0x0007, 0] = .command (.polyline []) 2 ∧ decode [0x0007, 1, 5] = .incomplete ∧
    decode [0x000A, 0] = .command (.text []) 2 ∧ decode [0x000A, 1] = .incomplete := by decide
theorem witness_IgnoredBitsDoNotChangeTheCommand :
    lowByte 0x1241 = lowByte 0xFF41 ∧ (0x1241 : Word) ≠ 0xFF41 ∧ (1 : Word).toNat % 2 = 1 ∧
    ([] : List Word).length = (1 : Word).toNat / 2 ∧ (3 : Word).toNat % 2 = 1 ∧ ([9] : List Word).length = (3 : Word).toNat / 2 := by
  decide
theorem witness_LaterWordsDoNotChangeWhatIsRead :
    decode [0x0009] = .command .nextline 1 ∧ decode [0x000C] = .illegal .unassignedOpcode 0x000C := by decide

-- The step.
theorem witness_StepExecutesTheDecodedCommand : small.cfg.wf = true ∧ small.err = false ∧
    decode (fed [0x0003, 1, 2, 0x0009] small).queue = .command (.pset 1 2) 3 := by decide
theorem witness_CompletedCommandAdvancesByItsLength : decode (fed [0x0009, 0x0002] small).queue = .command .nextline 1 ∧
    step (fed [0x0009, 0x0002] small) = .next (stepped (fed [0x0009, 0x0002] small)) :=
  ⟨by decide, stepped_eq _ (by decide)⟩
theorem witness_IllegalHeaderRecordsTheFault : small.cfg.wf = true ∧ small.err = false ∧
    decode (fed [0x0100] small).queue = .illegal .reservedHeaderBits 0x0100 ∧
    decode (fed [0x00FF] small).queue = .illegal .unassignedOpcode 0x00FF := by decide
theorem witness_HaltedEngineTakesNoStep : marked.cfg.wf = true ∧ marked.err = true := by decide
theorem witness_IncompleteCommandHasNoStep : small.cfg.wf = true ∧ small.err = false ∧ small.queue = [] ∧
    decode (fed [0x0006] small).queue = .incomplete ∧ decode (fed [0x0006, 1, 0] small).queue = .incomplete := by decide
theorem witness_AvailableCommandIsExecuted : BetweenCommands (fed [0x000A, 1, 0x0041] small) ∧
    (fed [0x000A, 1, 0x0041] small).err = false ∧ decode (fed [0x000A, 1, 0x0041] small).queue = .command (.text [0x41]) 3 :=
  ⟨fed_inv _ _ small_between rfl, rfl, by decide⟩
/-- A command, and an exception: for the statements about any step that answers a next state. -/
theorem witness_WordsSentLaterDoNotChangeAStep :
    step (fed [0x0001, 5, 13] f5) = .next (stepped (fed [0x0001, 5, 13] f5)) ∧ step p5 = .next (stepped p5) :=
  ⟨stepped_eq _ (by decide), stepped_eq _ (by decide)⟩
theorem witness_StepConservesTheStream :
    step (fed [0x000B, 0xFF41, 1] v2) = .next (stepped (fed [0x000B, 0xFF41, 1] v2)) ∧ step p5 = .next (stepped p5) :=
  ⟨stepped_eq _ (by decide), stepped_eq _ (by decide)⟩
-- Framebuffer commands: the corners of the canvas, and the first coordinate past each edge.
theorem witness_AddrAnswersTheAddressingLaw : small.cfg.wf = true ∧ small.cfg.InBounds 15 15 ∧ small.cfg.InBounds 0 0 ∧
    ¬small.cfg.InBounds 16 0 ∧ ¬small.cfg.InBounds 0 16 ∧ ¬small.cfg.InBounds (-1) 0 ∧ ¬small.cfg.InBounds 0 (-1) := by decide
theorem witness_AddressingLawIsABijection : fixedConfig.wf = true ∧ fixedConfig.InBounds 15 15 ∧ fixedConfig.InBounds 0 0 ∧
    1 ≤ 32 ∧ 32 ≤ fixedConfig.fbLen - 1 ∧ 7 < 8 ∧ fixedConfig.byteIndex 15 8 = fixedConfig.byteIndex 15 15 := by decide
theorem witness_ClearZeroesThePixelBytes : (tiny .zero).cfg.clearHdr = .zero ∧ (tiny .keep).cfg.clearHdr = .keep ∧
    1 ≤ (tiny .zero).cfg.fbLen - 1 := by decide
theorem witness_PsetSetsOneBit : small.cfg.wf = true ∧ small.cfg.InBounds 15 15 ∧ ¬small.cfg.InBounds 16 15 := by decide
theorem witness_PsetLightsAndClearDarkens : small.cfg.wf = true ∧ small.cfg.InBounds 0 15 ∧
    exec (.pset 0 15) (zeros small [17]) = .next (after (.pset 0 15) (zeros small [17])) ∧
    exec .clear small = .next (after .clear small) :=
  ⟨by decide, by decide, after_eq _ _ (by decide), after_eq _ _ (by decide)⟩
theorem witness_PsetsCommuteAndAreIdempotent : marked.cfg.wf = true ∧ marked.fb.wf := by decide

-- Rasterizer commands.
theorem witness_LineOrsItsPoints : small.cfg.wf = true ∧ small.cfg.InBounds 0 0 ∧
    (⟨0, 0⟩ : Point) ∈ linePoints small.cfg (-5) (-5) 32767 0 := by decide
theorem witness_LineFollowsTheErrorAccumulator : v2.cfg.wf = true ∧ v2.cfg.InBounds 15 31 := by decide
theorem witness_LinePointsFormOneShortPath : fixedConfig.wf = true ∧
    canon (fixedConfig.clampPt 9 3) (fixedConfig.clampPt (-1) 99) = (⟨0, 15⟩, ⟨9, 3⟩) := by decide
theorem witness_DegenerateLineIsOneClampedPixel : fixedConfig.wf = true := by decide
theorem witness_CircleOrsItsPoints : small.cfg.wf = true ∧ small.cfg.InBounds 0 5 ∧ (⟨0, 5⟩ : Point) ∈ circlePoints (-1) 5 1 := by
  decide
theorem witness_CircleFollowsTheQuadrantRecurrence : small.cfg.wf = true ∧ small.cfg.InBounds 15 0 := by decide
theorem witness_NonPositiveRadiusIsTheCentre : (0 : Int) ≤ 0 ∧ (-32768 : Int) ≤ 0 := by decide
theorem witness_CirclePointsAreClosedUnderQuarterTurns : (⟨10 + 2, 10 + 1⟩ : Point) ∈ circlePoints 10 10 2 := by decide
theorem witness_CircleTouchesAndStaysWithinItsBoundingSquare : (0 : Int) ≤ 2 ∧ (⟨12, 10⟩ : Point) ∈ circlePoints 10 10 2 := by decide
theorem witness_CirclePointsAreClosedUnderReflection : isS16 2 = true ∧ isS16 (-1) = true ∧
    (⟨10 + 2, 10 + 1⟩ : Point) ∈ circlePoints 10 10 2 ∧ (⟨10 + 0, 10 + 0⟩ : Point) ∈ circlePoints 10 10 (-1) := by decide
/-- No vertex, one, two; and a point of the closing edge only. -/
theorem witness_PolygonOrsEveryEdge : small.cfg.wf = true ∧ ([] : List Point).length ≤ 1 ∧ [(⟨3, 3⟩ : Point)].length ≤ 1 ∧
    (⟨0, 2⟩ : Point) ∈ edgePoints small.cfg (closingEdge [⟨0, 0⟩, ⟨4, 0⟩, ⟨4, 4⟩, ⟨0, 4⟩]) ∧ small.cfg.InBounds 0 2 ∧
    (⟨2, 0⟩ : Point) ∈ edgePoints small.cfg (openEdges [⟨0, 0⟩, ⟨4, 0⟩]) := by decide
theorem witness_PolylineOrsEveryEdgeButTheClosingOne : small.cfg.wf = true ∧ ([] : List Point).length ≤ 1 ∧
    [(⟨3, 3⟩ : Point)].length ≤ 1 ∧ small.cfg.InBounds 2 0 ∧
    (⟨2, 0⟩ : Point) ∈ edgePoints small.cfg (openEdges [⟨0, 0⟩, ⟨4, 0⟩]) := by decide
theorem witness_PolygonIsPolylineAndTheClosingLine :
    exec (.polyline [⟨0, 0⟩, ⟨1, 0⟩]) (zeros small [1, 2]) = .next (after (.polyline [⟨0, 0⟩, ⟨1, 0⟩]) (zeros small [1, 2])) :=
  after_eq _ _ (by decide)
-- Glyph table and text engine.
theorem witness_GqueryAnswersTheTable : small.cfg.wf = true ∧ v2.cfg.wf = true ∧ small.cfg.glyphs.font = .fixed 5 ∧
    v2.cfg.glyphs.font = .variable [3, 1, 0] [0, 6, 8] 4 ∧ small.cfg.IsPrintable 0x41 ∧ small.cfg.IsPrintable 0x42 ∧
    v2.cfg.IsPrintable 0x41 ∧ v2.cfg.IsPrintable 0x43 ∧ ¬small.cfg.IsPrintable 0x40 ∧ ¬small.cfg.IsPrintable 0x43 := by decide
theorem witness_SetcurClampsTheCursor : v2.cfg.wf = true := by decide
/-- The last row that advances, and the first that does not. -/
theorem witness_NextlineAdvancesOrSignals : v2.cfg.wf = true ∧
    (at' v2 9 0).cursor.row.toNat + v2.cfg.glyphPages ≤ v2.cfg.pages - v2.cfg.glyphPages ∧
    v2.cfg.pages - v2.cfg.glyphPages < (at' v2 9 1).cursor.row.toNat + v2.cfg.glyphPages := by decide
theorem witness_TextWritesOnlyCursorAndBlits : StateInv (at' small 15 1) :=
  at_inv _ _ _ small_between.1 (by decide) (by decide)
theorem witness_TextSpacesAndSkippedCharacters : StateInv small ∧ StateInv v2 ∧ small.cfg.glyphs.font = .fixed 5 ∧
    v2.cfg.glyphs.font = .variable [3, 1, 0] [0, 6, 8] 4 ∧ (0x40 : Byte) ≠ 0x20 ∧ ¬small.cfg.IsPrintable 0x40 :=
  ⟨small_between.1, v2_between.1, by decide⟩
theorem witness_TextStopsWhenNoLineIsLeft : (0x41 : Byte) ≠ 0x20 ∧ small.cfg.IsPrintable 0x41 ∧
    small.cfg.width ≤ (at' small 11 1).cursor.col.toNat + (small.cfg.glyphWidth 0x41).toNat ∧
    small.cfg.pages < (at' small 11 1).cursor.row.toNat + 2 * small.cfg.glyphPages := by decide
/-- Without a wrap at the last column that has room, with one at the first that has none. -/
theorem witness_TextGlyphIsBlittedAndTheRestFollows :
    StateInv (at' small 10 0) ∧ StateInv (at' small 11 0) ∧ (0x42 : Byte) ≠ 0x20 ∧ small.cfg.IsPrintable 0x42 ∧
    (at' small 10 0).cursor.col.toNat + (small.cfg.glyphWidth 0x42).toNat < small.cfg.width ∧
    small.cfg.width ≤ (at' small 11 0).cursor.col.toNat + (small.cfg.glyphWidth 0x42).toNat ∧
    (at' small 11 0).cursor.row.toNat + 2 * small.cfg.glyphPages ≤ small.cfg.pages :=
  ⟨at_inv _ _ _ small_between.1 (by decide) (by decide), at_inv _ _ _ small_between.1 (by decide) (by decide), by decide⟩
theorem witness_TextABLeavesAOnePixelGap : StateInv small ∧ small.cfg.glyphs.font = .fixed 5 ∧ small.cfg.separation = 1 ∧
    12 ≤ small.cfg.width ∧ small.cursor = ⟨0, 0⟩ ∧ small.cfg.IsPrintable 0x41 ∧ small.cfg.IsPrintable 0x42 :=
  ⟨small_between.1, by decide⟩

-- The whole machine.
theorem witness_EveryCommandCompletes : StateInv small ∧ StateInv v2 ∧ StateInv marked :=
  ⟨small_between.1, v2_between.1, marked_between.1⟩
/-- One step of each kind of writer, for the statements about any command that answers a next state. -/
theorem witness_CommandsWriteOnlyTheirOwnState :
    exec (.addr 5 13) f5 = .next (after (.addr 5 13) f5) ∧ exec .clear small = .next (after .clear small) ∧
    exec (.gquery 0x43) v2 = .next (after (.gquery 0x43) v2) ∧ exec .nextline v2 = .next (after .nextline v2) ∧
    exec (.text [0x41]) v2 = .next (after (.text [0x41]) v2) :=
  ⟨after_eq _ _ (by decide), after_eq _ _ (by decide), after_eq _ _ (by decide), after_eq _ _ (by decide), after_eq _ _ (by decide)⟩
theorem witness_OnlyClearWritesTheReservedByte :
    exec .clear (tiny .keep) = .next (after .clear (tiny .keep)) ∧ (tiny .keep).cfg.clearHdr ≠ .zero ∧
    exec (.text [0x41]) v2 = .next (after (.text [0x41]) v2) :=
  ⟨after_eq _ _ (by decide), by decide, after_eq _ _ (by decide)⟩
theorem witness_NoCommandWritesPastTheFramebuffer :
    exec .clear (tiny .zero) = .next (after .clear (tiny .zero)) ∧ (tiny .zero).cfg.fbLen ≤ 2 ∧
    StateInv (at' small 15 1) ∧ pixelWrites small.cfg [⟨15, 15⟩, ⟨16, 15⟩] = [.orBit 32 7] ∧
    (textRun small.cfg [0x41] (at' small 10 1).cursor).2.map FbWrite.index = [27, 28, 29, 30, 31] :=
  ⟨after_eq _ _ (by decide), by decide, at_inv _ _ _ small_between.1 (by decide) (by decide), by decide, by decide⟩
theorem witness_PixelsNeverReachARegister :
    exec (.text [0x41]) v2 = .next (after (.text [0x41]) v2) ∧
    exec (.pset 0 0) (zeros small [1]) = .next (after (.pset 0 0) (zeros small [1])) :=
  ⟨after_eq _ _ (by decide), after_eq _ _ (by decide)⟩
theorem witness_StepKeepsTheInvariant : BetweenCommands (fed [0x0001, 5, 13] f5) ∧
    step (fed [0x0001, 5, 13] f5) = .next (stepped (fed [0x0001, 5, 13] f5)) ∧ BetweenCommands (fed [0x000C] small) ∧
    step (fed [0x000C] small) = .next (stepped (fed [0x000C] small)) :=
  ⟨fed_inv _ _ f5_between rfl, stepped_eq _ (by decide), fed_inv _ _ small_between rfl, stepped_eq _ (by decide)⟩
theorem witness_ResetHasTheInvariant : Config.conventional.wf = true ∧ v2Config.wf = true := by decide
theorem witness_EveryReachableStateHasTheInvariant : v2Config.wf = true ∧
    Reachable v2Config (stepped (fed [0x000B, 0xFF41, 1] v2)) :=
  ⟨by decide, .step _ _ (.send _ [0x000B, 0xFF41, 1] (.reset 0)) (stepped_eq _ (by decide))⟩
theorem witness_RunsEndCompletedFaultedOrStuck : fixedConfig.wf = true := by decide
theorem witness_HostRegistersFollowTheMap : small.busy = false ∧ (beginCommand marked).busy = true ∧
    (beginCommand marked).err = true := by decide
theorem witness_HostReadsAreDefinedWhenNoCommandExecutes : small.busy = false ∧ (beginCommand marked).err = true ∧
    0 < small.cfg.fbLen ∧ 32 < small.cfg.fbLen := by decide
theorem witness_ResetClearsEveryRegisterAndRestartsTheStream : marked.cfg.wf = true ∧
    decode [0x0009, 0x000C] = .command .nextline 1 ∧ decode [0x000C] = .illegal .unassignedOpcode 0x000C := by decide
/-- A state whose fault record is set, and one with every register at 0. -/
theorem witness_HostActionsKeepTheInvariant : BetweenCommands marked ∧ BetweenCommands small := ⟨marked_between, small_between⟩

end Sys2Proof.Tests
end

section
/-! PROOFS (scope). When a step is refused (R254), and what well-formedness of a configuration says written out (R6, R10,
R163). -/

namespace Sys2Proof

/-- The table-length condition read off the font's fields; for a fixed font it is empty (R163, item 3). -/
theorem GlyphTable.tablesWf_iff (g : GlyphTable) : g.tablesWf = true ↔
    ∀ widths offsets space, g.font = .variable widths offsets space →
      widths.length = g.lastChar.toNat - g.firstChar.toNat + 1 ∧
      offsets.length = g.lastChar.toNat - g.firstChar.toNat + 1 := by
  unfold GlyphTable.tablesWf
  rcases g.font with cellWidth | ⟨widths, offsets, space⟩
  · simp
  · rw [decide_eq_true_iff]
    constructor
    · rintro h _ _ _ ⟨⟩
      exact h
    · intro h
      exact h widths offsets space rfl

theorem Config.glyphInRom_iff (c : Config) (ch : Byte) : c.glyphInRom ch = true ↔
    c.glyphByteOffset ch + (c.glyphWidth ch).toNat * c.glyphPages ≤ c.glyphs.bitmapData.length :=
  romReaches_iff _ _

/-- The list of codes the model checks against the ROM is the whole printable range (R163 item 4, R164). -/
theorem Config.printableCodes_inRom_iff (c : Config) : (∀ ch ∈ c.printableCodes, c.glyphInRom ch = true) ↔
    ∀ ch : Byte, c.IsPrintable ch →
      c.glyphByteOffset ch + (c.glyphWidth ch).toNat * c.glyphPages ≤ c.glyphs.bitmapData.length := by
  simp only [Config.mem_printableCodes, Config.glyphInRom_iff]

end Sys2Proof

namespace Sys2Proof.Machine

theorem commit_ne_refused (ws : List FbWrite) (s : State) (r : Refusal) : commit ws s ≠ .refused r := by
  unfold commit
  split <;> rintro ⟨⟩

/-- Every command has a meaning: none is refused (R84). -/
theorem exec_ne_refused (i : Instr) (s : State) (r : Refusal) : exec i s ≠ .refused r := by
  cases i with
  | addr x y =>
    change execAddr x y s ≠ _
    unfold execAddr
    split <;> rintro ⟨⟩
  | clear => rintro ⟨⟩
  | setcur col row => rintro ⟨⟩
  | nextline =>
    change execNextline s ≠ _
    unfold execNextline
    split <;> rintro ⟨⟩
  | gquery c =>
    change execGquery c s ≠ _
    unfold execGquery
    split <;> rintro ⟨⟩
  | pset x y => exact commit_ne_refused _ _ _
  | line x1 y1 x2 y2 => exact commit_ne_refused _ _ _
  | circle cx cy rad => exact commit_ne_refused _ _ _
  | polygon vs => exact commit_ne_refused _ _ _
  | polyline vs => exact commit_ne_refused _ _ _
  | text str => exact commit_ne_refused _ _ _

theorem retire_eq_refused (k : Nat) (a : Result) (r : Refusal) : retire k a = .refused r ↔ a = .refused r := by
  cases a <;> simp [retire]

/-- The one refusal a step answers, and exactly when (R254). -/
theorem step_eq_refused (s : State) (r : Refusal) :
    step s = .refused r ↔ ¬ s.cfg.wf = true ∧ r = .illFormedConfiguration := by
  unfold step
  by_cases hw : s.cfg.wf = true
  · by_cases he : s.err = true
    · simp [hw, he]
    · rw [if_pos hw, if_neg he]
      cases decode s.queue with
      | noWord => simp [hw]
      | illegal cause h => simp [hw]
      | incomplete => simp [hw]
      | command i k => simp [hw, retire_eq_refused, exec_ne_refused]
  · simp [hw, eq_comm]

end Sys2Proof.Machine

open Sys2Proof Sys2Proof.Machine

/-- Settles O14: only the configuration test of `step` refuses, and its four parts say what R6, R10 and R163 say. -/
theorem exactlyIllFormedConfigurationsAreRefused : Obligations.ExactlyIllFormedConfigurationsAreRefused := by
  unfold Obligations.ExactlyIllFormedConfigurationsAreRefused
  intro s
  rw [step_eq_refused, and_iff_left rfl, Config.wf_iff, Config.glyphsWf_iff, GlyphTable.tablesWf_iff,
    Config.printableCodes_inRom_iff]
  refine not_congr ⟨?_, ?_⟩
  · rintro ⟨⟨hw1, hw2, hh1, hh2, hh8⟩, ⟨hcodes, hg1, hg2, hrom⟩, htables, hglyphs⟩
    exact ⟨⟨hw1, hw2⟩, ⟨hh1, hh2⟩, hh8, hrom, hcodes, ⟨hg1, hg2⟩, htables, fun ch h1 h2 => hglyphs ch ⟨h1, h2⟩⟩
  · rintro ⟨⟨hw1, hw2⟩, ⟨hh1, hh2⟩, hh8, hrom, hcodes, ⟨hg1, hg2⟩, htables, hglyphs⟩
    exact ⟨⟨hw1, hw2, hh1, hh2, hh8⟩, ⟨hcodes, hg1, hg2, hrom⟩, htables, fun ch h => hglyphs ch h.1 h.2⟩

end

section
/-! PROOFS (state). What a command can answer, said once as a relation, and from it: what each command writes, that no
pixel reaches a register, and the invariant over commands, steps, host actions and runs (R20 to R38). -/

namespace Sys2Proof

/-- The points SetPixel is called on by the commands that do nothing else (R103, R123, R126, R128, R129). -/
def rasterPoints (c : Config) : Instr → Option (List Point)
  | .pset x y => some [⟨x, y⟩]
  | .line x1 y1 x2 y2 => some (Machine.linePoints c x1 y1 x2 y2)
  | .circle cx cy r => some (Machine.circlePoints cx cy r)
  | .polygon vs => some (Machine.edgePoints c (Machine.openEdges vs ++ Machine.closingEdge vs))
  | .polyline vs => some (Machine.edgePoints c (Machine.openEdges vs))
  | _ => none

theorem rasterPoints_eq_some (c : Config) (i : Instr) (ps : List Point) (h : rasterPoints c i = some ps) :
    (∃ x y, i = .pset x y) ∨ (∃ x1 y1 x2 y2, i = .line x1 y1 x2 y2) ∨ (∃ cx cy r, i = .circle cx cy r) ∨
      (∃ vs, i = .polygon vs) ∨ ∃ vs, i = .polyline vs := by
  cases i <;> simp [rasterPoints] at h ⊢

namespace Machine

theorem exec_of_rasterPoints (i : Instr) (ps : List Point) (s : State) (h : rasterPoints s.cfg i = some ps) :
    exec i s = drawPixels ps s := by
  cases i <;> cases h <;> rfl

/-- Everything a command can answer, one case for each path through `exec` (R84). -/
inductive Effect (s : State) : Instr → State → Prop
  | addrInside {x y : Int} (hb : s.cfg.InBounds x y) :
    Effect s (.addr x y) (s.withAddress true (s.cfg.byteIndex x y) (bitOffset y))
  | addrOutside {x y : Int} (hb : ¬s.cfg.InBounds x y) : Effect s (.addr x y) (s.withAddress false 0 0)
  | gqueryPrintable {ch : Byte} (hp : s.cfg.IsPrintable ch) :
    Effect s (.gquery ch) (s.withGlyph true (s.cfg.glyphWidth ch) (s.cfg.glyphByteOffset ch))
  | gqueryOther {ch : Byte} (hp : ¬s.cfg.IsPrintable ch) : Effect s (.gquery ch) (s.withGlyph false 0 0)
  | setcur {col row : Int} : Effect s (.setcur col row) (s.withCursor (setCursor s.cfg col row))
  | nextlineAdvances {cur : Cursor} (ha : advanceLine s.cfg s.cursor = some cur) :
    Effect s .nextline ((s.withCursor cur).withNoline false)
  | nextlineFails (ha : advanceLine s.cfg s.cursor = none) : Effect s .nextline (s.withNoline true)
  | clear : Effect s .clear (s.withFb (clearedFb s.cfg s.fb))
  | raster {i : Instr} {ps : List Point} (hr : rasterPoints s.cfg i = some ps)
    (hw : ∀ w ∈ pixelWrites s.cfg ps, w.index < s.cfg.fbLen) :
    Effect s i (s.withFb (applyWrites s.resetEpoch s.fb (pixelWrites s.cfg ps)))
  | text {str : List Byte} (hw : ∀ w ∈ (textRun s.cfg str s.cursor).2, w.index < s.cfg.fbLen) :
    Effect s (.text str) ((s.withCursor (textRun s.cfg str s.cursor).1).withFb
      (applyWrites s.resetEpoch s.fb (textRun s.cfg str s.cursor).2))

theorem effect_of_execAddr {x y : Int} {s t : State} (h : execAddr x y s = .next t) : Effect s (.addr x y) t := by
  unfold execAddr at h
  split at h <;> cases h
  · exact .addrInside ‹_›
  · exact .addrOutside ‹_›

theorem effect_of_execGquery {ch : Byte} {s t : State} (h : execGquery ch s = .next t) : Effect s (.gquery ch) t := by
  unfold execGquery at h
  split at h <;> cases h
  · exact .gqueryPrintable ‹_›
  · exact .gqueryOther ‹_›

theorem effect_of_execNextline {s t : State} (h : execNextline s = .next t) : Effect s .nextline t := by
  unfold execNextline at h
  split at h <;> cases h
  · exact .nextlineAdvances ‹_›
  · exact .nextlineFails ‹_›

theorem effect_of_drawPixels {i : Instr} {ps : List Point} {s t : State} (hr : rasterPoints s.cfg i = some ps)
    (h : drawPixels ps s = .next t) : Effect s i t := by
  obtain ⟨hw, rfl⟩ := (commit_eq_next _ s t).1 h
  exact .raster hr hw

/-- A command answers exactly the states of `Effect`. -/
theorem exec_eq_next (i : Instr) (s t : State) : exec i s = .next t ↔ Effect s i t := by
  constructor
  · intro h
    cases i with
    | addr x y => exact effect_of_execAddr h
    | gquery ch => exact effect_of_execGquery h
    | nextline => exact effect_of_execNextline h
    | clear => cases h; exact .clear
    | setcur col row => cases h; exact .setcur
    | text str => obtain ⟨hw, rfl⟩ := (exec_text_eq_next str s t).1 h; exact .text hw
    | pset x y => exact effect_of_drawPixels rfl h
    | line x1 y1 x2 y2 => exact effect_of_drawPixels rfl h
    | circle cx cy r => exact effect_of_drawPixels rfl h
    | polygon vs => exact effect_of_drawPixels rfl h
    | polyline vs => exact effect_of_drawPixels rfl h
  · intro h
    cases h with
    | addrInside hb => exact if_pos hb
    | addrOutside hb => exact if_neg hb
    | gqueryPrintable hp => exact if_pos hp
    | gqueryOther hp => exact if_neg hp
    | setcur => rfl
    | nextlineAdvances ha => rw [exec, execNextline, ha]
    | nextlineFails ha => rw [exec, execNextline, ha]
    | clear => rfl
    | raster hr hw => rw [exec_of_rasterPoints _ _ _ hr]; exact commit_next _ _ hw
    | text hw => exact (exec_text_eq_next _ _ _).2 ⟨hw, rfl⟩

section
variable {s t : State} {i : Instr} (h : Effect s i t)
include h

/-- What no command writes: the configuration, the fault record, the stream, `BUSY` (R27, R30, R34, R68, R170). -/
theorem Effect.frame : t.cfg = s.cfg ∧ t.err = s.err ∧ t.errCause = s.errCause ∧ t.errWord = s.errWord ∧
    t.errPos = s.errPos ∧ t.sp = s.sp ∧ t.queue = s.queue ∧ t.busy = s.busy ∧ t.resetEpoch = s.resetEpoch := by
  cases h <;> exact ⟨rfl, rfl, rfl, rfl, rfl, rfl, rfl, rfl, rfl⟩

theorem Effect.cfg_eq : t.cfg = s.cfg := h.frame.1

theorem Effect.err_eq : t.err = s.err := h.frame.2.1

theorem Effect.sp_eq : t.sp = s.sp := by
  obtain ⟨-, -, -, -, -, hsp, -⟩ := h.frame
  exact hsp

theorem Effect.queue_eq : t.queue = s.queue := by
  obtain ⟨-, -, -, -, -, -, hqueue, -⟩ := h.frame
  exact hqueue

/-- The writers of the cursor (R25). -/
theorem Effect.cursor_writers :
    t.cursor = s.cursor ∨ (∃ c r, i = .setcur c r) ∨ i = .nextline ∨ ∃ str, i = .text str := by
  cases h with
  | setcur => exact .inr (.inl ⟨_, _, rfl⟩)
  | nextlineAdvances => exact .inr (.inr (.inl rfl))
  | text => exact .inr (.inr (.inr ⟨_, rfl⟩))
  | _ => exact .inl rfl

/-- The writer of `NOLINE` (R26). -/
theorem Effect.noline_writers : t.noline = s.noline ∨ i = .nextline := by
  cases h with
  | nextlineAdvances => exact .inr rfl
  | nextlineFails => exact .inr rfl
  | _ => exact .inl rfl

/-- The writer of ADDR's answer (R28, R32). -/
theorem Effect.address_writers :
    (t.avalid = s.avalid ∧ t.aidx = s.aidx ∧ t.abit = s.abit) ∨ ∃ x y, i = .addr x y := by
  cases h with
  | addrInside => exact .inr ⟨_, _, rfl⟩
  | addrOutside => exact .inr ⟨_, _, rfl⟩
  | _ => exact .inl ⟨rfl, rfl, rfl⟩

/-- The writer of GQUERY's answer (R29, R33). -/
theorem Effect.glyph_writers :
    (t.gprint = s.gprint ∧ t.gwidth = s.gwidth ∧ t.goff = s.goff) ∨ ∃ c, i = .gquery c := by
  cases h with
  | gqueryPrintable => exact .inr ⟨_, rfl⟩
  | gqueryOther => exact .inr ⟨_, rfl⟩
  | _ => exact .inl ⟨rfl, rfl, rfl⟩

/-- The writers of the framebuffer (R22). -/
theorem Effect.fb_writers : t.fb = s.fb ∨ i = .clear ∨ (∃ x y, i = .pset x y) ∨
    (∃ x1 y1 x2 y2, i = .line x1 y1 x2 y2) ∨ (∃ cx cy r, i = .circle cx cy r) ∨ (∃ vs, i = .polygon vs) ∨
    (∃ vs, i = .polyline vs) ∨ ∃ str, i = .text str := by
  cases h with
  | clear => simp
  | raster hr =>
    rcases rasterPoints_eq_some _ _ _ hr with ⟨_, _, rfl⟩ | ⟨_, _, _, _, rfl⟩ | ⟨_, _, _, rfl⟩ | ⟨_, rfl⟩ |
      ⟨_, rfl⟩ <;> simp
  | text => simp
  | _ => exact .inl rfl

end

/-- A command's registers do not depend on the framebuffer it starts from (R22). -/
theorem Effect.under_other_fb {s t : State} {i : Instr} (h : Effect s i t) (m : Memory) (e : Nat) :
    ∃ m', Effect { s with fb := m, resetEpoch := e } i { t with fb := m', resetEpoch := e } := by
  cases h with
  | addrInside hb => exact ⟨m, .addrInside hb⟩
  | addrOutside hb => exact ⟨m, .addrOutside hb⟩
  | gqueryPrintable hp => exact ⟨m, .gqueryPrintable hp⟩
  | gqueryOther hp => exact ⟨m, .gqueryOther hp⟩
  | setcur => exact ⟨m, .setcur⟩
  | nextlineAdvances ha => exact ⟨m, .nextlineAdvances ha⟩
  | nextlineFails ha => exact ⟨m, .nextlineFails ha⟩
  | clear => exact ⟨_, .clear⟩
  | raster hr hw => exact ⟨_, .raster hr hw⟩
  | text hw => exact ⟨_, .text hw⟩

/-! ## The invariant under each update of the state -/

/-- The two conditions of `StateInv` on the framebuffer. -/
abbrev FbOk (c : Config) (m : Memory) : Prop := m.wf ∧ ∀ d ∈ m, d.1 < c.fbLen

theorem applyWrites_fbOk {c : Config} {m : Memory} (hm : FbOk c m) (epoch : Nat) {ws : List FbWrite}
    (hw : ∀ w ∈ ws, w.index < c.fbLen) : FbOk c (applyWrites epoch m ws) := by
  refine ⟨applyWrites_wf epoch m ws hm.1, fun d hd => ?_⟩
  rcases mem_applyWrites epoch m ws d hd with ⟨w, hmem, he⟩ | hd
  · exact he ▸ hw w hmem
  · exact hm.2 d hd

theorem fill_fbOk {c : Config} {m : Memory} (hm : FbOk c m) {lo n : Nat} (hn : lo + n ≤ c.fbLen) (v : Byte) :
    FbOk c (m.fill lo n v) := by
  refine ⟨Memory.fill_wf m lo n v hm.1, fun d hd => ?_⟩
  rcases Memory.mem_fill m lo n v d hd with ⟨-, hlt, -⟩ | hd
  · omega
  · exact hm.2 d hd

theorem clearedFb_fbOk {c : Config} {m : Memory} (hm : FbOk c m) : FbOk c (clearedFb c m) := by
  have hlen : 1 ≤ c.fbLen := Nat.le_add_right 1 _
  unfold clearedFb
  split
  · exact fill_fbOk hm (by omega) 0
  · exact fill_fbOk hm (by omega) 0

section
variable {s : State} (hs : StateInv s)
include hs

theorem StateInv.fbOk : FbOk s.cfg s.fb := ⟨hs.canonical, hs.inRange⟩

theorem StateInv.cursorInRange : CursorInRange s.cfg s.cursor := ⟨hs.column, hs.row⟩

theorem StateInv.withFb {m : Memory} (hm : FbOk s.cfg m) : StateInv (s.withFb m) :=
  { hs with canonical := hm.1, inRange := hm.2 }

theorem StateInv.withCursor {cur : Cursor} (hc : CursorInRange s.cfg cur) : StateInv (s.withCursor cur) :=
  { hs with column := hc.1, row := hc.2 }

theorem StateInv.withNoline (failed : Bool) : StateInv (s.withNoline failed) := { hs with }

theorem StateInv.withAddress {valid : Bool} {idx bit : Nat} (ha : AddressAnswer (s.withAddress valid idx bit)) :
    StateInv (s.withAddress valid idx bit) := { hs with address := ha }

theorem StateInv.withGlyph {printable : Bool} {width : Byte} {offset : Nat}
    (hg : GlyphAnswer (s.withGlyph printable width offset)) : StateInv (s.withGlyph printable width offset) :=
  { hs with glyph := hg }

theorem StateInv.beginCommand : StateInv (beginCommand s) := { hs with }

/-- The fault record of an unfaulted state does not speak of the stream, so retiring a command keeps it. -/
theorem StateInv.retireCommand (he : s.err = false) (k : Nat) : StateInv (retireCommand k s) :=
  { hs with record := by simpa [FaultRecord, he] using hs.record }

/-- The header word of a fault record stays at the head of the stream when words follow it. -/
theorem StateInv.hostSend (ws : List Word) : StateInv (hostSend ws s) := by
  refine { hs with record := ?_ }
  have hrec := hs.record
  cases he : s.err with
  | false => simpa [FaultRecord, he] using hrec
  | true =>
    simp only [FaultRecord, he, if_true, hostSend_err, hostSend_queue] at hrec ⊢
    obtain ⟨hpos, hhead, hcause⟩ := hrec
    exact ⟨hpos, by rw [List.head?_append, hhead]; rfl, hcause⟩

end

/-! ## The invariant under commands and steps -/

/-- The framebuffer has less than 2^32 bytes, so an index fits `AIDX` (R10, R32). -/
theorem fbLen_lt {c : Config} (h : c.GeometryWf) : c.fbLen < 2 ^ 32 := by
  have hpages := Config.pages_le h
  obtain ⟨-, hwidth, -⟩ := h
  have : c.width * c.pages ≤ 32767 * 4095 := Nat.mul_le_mul hwidth hpages
  unfold Config.fbLen
  omega

/-- ADDR's answer for a pixel in bounds (R58, R101). -/
theorem addressAnswer_inside {s : State} (hs : StateInv s) {x y : Int} (hb : s.cfg.InBounds x y) (bit : Nat) :
    AddressAnswer (s.withAddress true (s.cfg.byteIndex x y) bit) := by
  have hgeo := Config.geometry_of_wf hs.config
  have hlen := fbLen_lt hgeo
  have hrange := Config.byteIndex_range hgeo hb
  refine (if_pos rfl).mpr ?_
  rw [State.withAddress_aidx, State.withAddress_cfg, BitVec.toNat_ofNat, Nat.mod_eq_of_lt (by omega)]
  exact hrange

/-- GQUERY's answer for a printable code: its glyph lies in the ROM (R163, R169). -/
theorem glyphAnswer_printable {s : State} (hs : StateInv s) {ch : Byte} (hp : s.cfg.IsPrintable ch) :
    GlyphAnswer (s.withGlyph true (s.cfg.glyphWidth ch) (s.cfg.glyphByteOffset ch)) := by
  have hrom := Config.glyph_in_rom hs.config ch hp
  have hmod := Nat.mod_le (s.cfg.glyphByteOffset ch) (2 ^ 32)
  refine (if_pos rfl).mpr ?_
  simp only [State.withGlyph_goff, State.withGlyph_gwidth, State.withGlyph_cfg, BitVec.toNat_ofNat]
  omega

/-- Every command keeps the invariant (R25, R58, R106, R190). -/
theorem Effect.keeps_inv {s t : State} {i : Instr} (h : Effect s i t) (hs : StateInv s) : StateInv t := by
  cases h with
  | addrInside hb => exact hs.withAddress (addressAnswer_inside hs hb _)
  | addrOutside hb => exact hs.withAddress ⟨rfl, rfl⟩
  | gqueryPrintable hp => exact hs.withGlyph (glyphAnswer_printable hs hp)
  | gqueryOther hp => exact hs.withGlyph ⟨rfl, rfl⟩
  | setcur => exact hs.withCursor (setCursor_inRange hs.config _ _)
  | nextlineAdvances ha =>
    obtain ⟨-, -, hrange⟩ := advanceLine_eq_some hs.config _ _ ha
    exact (hs.withCursor hrange).withNoline false
  | nextlineFails ha => exact hs.withNoline true
  | clear => exact hs.withFb (clearedFb_fbOk hs.fbOk)
  | raster hr hw => exact hs.withFb (applyWrites_fbOk hs.fbOk _ hw)
  | @text str hw =>
    have hcur := (textRun_range hs.config str _ hs.cursorInRange).1
    exact (hs.withCursor hcur).withFb (applyWrites_fbOk hs.fbOk _ hw)

theorem toNat_headerRsv (h : Word) : (headerRsv h).toNat = h.toNat / 256 := by
  have := h.isLt
  rw [headerRsv, BitVec.extractLsb'_toNat, Nat.shiftRight_eq_div_pow]
  omega

theorem toNat_headerOp (h : Word) : (headerOp h).toNat = h.toNat % 256 := by
  rw [headerOp, BitVec.extractLsb'_toNat, Nat.shiftRight_zero]

/-- The unassigned opcodes (R84). -/
theorem opcodeOf_eq_none (op : Byte) (h : opcodeOf op = none) : op.toNat = 0 ∨ 0x0C ≤ op.toNat := by
  by_contra hrange
  have hlow : 1 ≤ op.toNat := by omega
  have hhigh : op.toNat ≤ 0x0B := by omega
  interval_cases hn : op.toNat <;> simp [opcodeOf, hn] at h

/-- What makes the decoder answer an illegal header (R86, R227). -/
theorem decode_eq_illegal (ws : List Word) (cause : IllegalCause) (h : Word) (hd : decode ws = .illegal cause h) :
    ws.head? = some h ∧ ((cause = .reservedHeaderBits ∧ headerRsv h ≠ 0) ∨
      (cause = .unassignedOpcode ∧ headerRsv h = 0 ∧ opcodeOf (headerOp h) = none)) := by
  cases ws with
  | nil => cases hd
  | cons a rest =>
    by_cases h0 : headerRsv a = 0
    · cases ho : opcodeOf (headerOp a) with
      | none =>
        rw [decode, if_neg (not_not.2 h0), ho] at hd
        cases hd
        exact ⟨rfl, .inr ⟨rfl, h0, ho⟩⟩
      | some op =>
        rw [decode_cons a rest op h0 ho] at hd
        split at hd
        · cases hd
        · split at hd <;> cases hd
    · rw [decode, if_pos h0] at hd
      cases hd
      exact ⟨rfl, .inl ⟨rfl, h0⟩⟩

/-- The recorded cause of an illegal header, by the header's value (R34, R221). -/
theorem decode_illegal_causeCode (ws : List Word) (cause : IllegalCause) (h : Word)
    (hd : decode ws = .illegal cause h) :
    (causeCode cause = 1 ∧ 0x100 ≤ h.toNat) ∨
      (causeCode cause = 2 ∧ (h.toNat = 0 ∨ (0x0C ≤ h.toNat ∧ h.toNat ≤ 0xFF))) := by
  have hrsv := toNat_headerRsv h
  obtain ⟨-, ⟨rfl, hne⟩ | ⟨rfl, h0, hnone⟩⟩ := decode_eq_illegal ws cause h hd
  · have : (headerRsv h).toNat ≠ 0 := fun e => hne (BitVec.eq_of_toNat_eq e)
    exact .inl ⟨rfl, by omega⟩
  · have hop := toNat_headerOp h
    have hrange := opcodeOf_eq_none _ hnone
    have : (headerRsv h).toNat = 0 := congrArg BitVec.toNat h0
    exact .inr ⟨rfl, by omega⟩

/-- Raising IllegalCommand keeps the invariant: it writes the fault record alone, and writes it as R222 says. -/
theorem StateInv.raiseIllegalCommand {s : State} (hs : StateInv s) {cause : IllegalCause} {h : Word}
    (hd : decode s.queue = .illegal cause h) : StateInv (raiseIllegalCommand cause h s) := by
  refine { hs with record := (if_pos rfl).mpr ⟨rfl, ?_, ?_⟩ }
  · exact (decode_eq_illegal s.queue cause h hd).1
  · exact decode_illegal_causeCode s.queue cause h hd

/-- A step raises IllegalCommand or retires a command's effect. -/
theorem step_cases {s t : State} (h : step s = .next t) : s.err = false ∧
    ((∃ cause w, decode s.queue = .illegal cause w ∧ t = raiseIllegalCommand cause w s) ∨
      ∃ i k u, decode s.queue = .command i k ∧ Effect (beginCommand s) i u ∧ t = retireCommand k u) := by
  simpa only [exec_eq_next] using ((step_eq_next s t).1 h).2

theorem step_keeps_inv {s t : State} (hs : BetweenCommands s) (h : step s = .next t) : BetweenCommands t := by
  obtain ⟨hinv, hbusy⟩ := hs
  obtain ⟨herr, ⟨cause, w, hd, rfl⟩ | ⟨i, k, u, -, heff, rfl⟩⟩ := step_cases h
  · exact ⟨hinv.raiseIllegalCommand hd, hbusy⟩
  · exact ⟨(heff.keeps_inv hinv.beginCommand).retireCommand (heff.err_eq.trans herr) k, rfl⟩

theorem step_cfg {s t : State} (h : step s = .next t) : t.cfg = s.cfg := by
  obtain ⟨-, ⟨cause, w, -, rfl⟩ | ⟨i, k, u, -, heff, rfl⟩⟩ := step_cases h
  · rfl
  · exact heff.cfg_eq

/-! ## The invariant under reset, host actions and runs -/

theorem resetOf_between {c : Config} (hc : c.wf = true) (epoch : Nat) : BetweenCommands (State.resetOf c epoch) := by
  obtain ⟨hwidth, -⟩ := Config.geometry_of_wf hc
  obtain ⟨-, hpages⟩ := Config.pages_of_wf hc
  refine ⟨?_, rfl⟩
  constructor
  case config => exact hc
  case canonical => exact .nil
  case inRange => intro d hd; cases hd
  case column => exact hwidth
  case row => simpa using hpages
  case address => exact ⟨rfl, rfl⟩
  case glyph => exact ⟨rfl, rfl⟩
  case record => exact ⟨rfl, rfl, rfl⟩

theorem hostSend_between {s : State} (hs : BetweenCommands s) (ws : List Word) : BetweenCommands (hostSend ws s) :=
  ⟨hs.1.hostSend ws, hs.2⟩

theorem hostReset_between {s : State} (hs : BetweenCommands s) : BetweenCommands (hostReset s) :=
  resetOf_between hs.1.config _

/-! ## The stream -/

theorem length_readVertices (n : Nat) (ws : List Word) (h : 2 * n ≤ ws.length) : (readVertices n ws).length = n := by
  induction n generalizing ws with
  | zero => simp [readVertices]
  | succ n ih =>
    match ws, h with
    | x :: y :: ws, h => simp [readVertices, ih ws (by simp at h; omega)]

theorem length_readChars (n : Nat) (ws : List Word) (h : (n + 1) / 2 ≤ ws.length) : (readChars n ws).length = n := by
  induction n using Nat.twoStepInduction generalizing ws with
  | zero => simp [readChars]
  | one =>
    match ws, h with
    | w :: ws, _ => simp [readChars]
  | more n ih _ =>
    match ws, h with
    | [], h => simp at h
    | w :: ws, h => simp [readChars, ih ws (by simp at h; omega)]

/-- The length the decoder computes from the header and word 1 is that of the command it reads (R82). -/
theorem lengthWords_readOperands (op : Opcode) (ws : List Word) (k : Nat) (hk : commandLength op ws.head? = some k)
    (h : k ≤ ws.length + 1) : (readOperands op ws).lengthWords = k := by
  cases op <;> simp only [commandLength, Option.map_eq_some_iff, Option.some.injEq] at hk
  case polygon | polyline =>
    obtain ⟨n, hn, rfl⟩ := hk
    match ws, hn with
    | n :: ws, rfl =>
      rw [List.length_cons] at h
      exact congrArg (2 + 2 * ·) (length_readVertices n.toNat ws (by omega))
  case text =>
    obtain ⟨n, hn, rfl⟩ := hk
    match ws, hn with
    | n :: ws, rfl =>
      rw [List.length_cons] at h
      exact congrArg (fun l => 2 + (l + 1) / 2) (length_readChars n.toNat ws (by omega))
  all_goals exact hk

theorem lengthWords_of_decode {ws : List Word} {i : Instr} {k : Nat} (hd : decode ws = .command i k) :
    k = i.lengthWords ∧ k ≤ ws.length := by
  obtain ⟨h, rest, op, rfl, -, -, hk, hlen, rfl⟩ := (decode_eq_command ws i k).1 hd
  exact ⟨(lengthWords_readOperands op rest k hk hlen).symm, hlen⟩

/-- A retired command moves the stream and `SP` by its length (R30, R86). -/
theorem step_command {s t : State} {i : Instr} {k : Nat} (hd : decode s.queue = .command i k) (h : step s = .next t) :
    t.sp = s.sp + BitVec.ofNat 32 k ∧ t.queue = s.queue.drop k ∧ t.busy = false := by
  obtain ⟨-, ⟨cause, w, hd', rfl⟩ | ⟨j, n, u, hd', heff, rfl⟩⟩ := step_cases h
  · cases hd.symm.trans hd'
  · cases hd.symm.trans hd'
    rw [retireCommand_sp, retireCommand_queue, heff.sp_eq, heff.queue_eq]
    exact ⟨rfl, rfl, rfl⟩

/-- `SP` plus the words left is unchanged when `k` of them are consumed (R30). -/
theorem sp_add_length_drop (sp : BitVec 32) (ws : List Word) (k : Nat) (h : k ≤ ws.length) :
    sp + BitVec.ofNat 32 k + BitVec.ofNat 32 (ws.drop k).length = sp + BitVec.ofNat 32 ws.length := by
  rw [BitVec.add_assoc, ← BitVec.ofNat_add, List.length_drop, Nat.add_sub_cancel' h]

/-! ## The host's registers -/

/-- The two halves of a 32-bit register are the register (R36). -/
theorem extract_high_append_low (v : BitVec 32) : v.extractLsb' 16 16 ++ v.extractLsb' 0 16 = v := by
  rw [BitVec.extractLsb'_append_extractLsb'_eq_extractLsb' (by rfl), BitVec.extractLsb'_eq_self]

/-- A field alone in bits [7:0] of a host register is the field zero-extended (R36). -/
theorem zero_append_byte (v : Byte) : (0 : BitVec 8) ++ v = v.zeroExtend 16 := by
  rw [BitVec.zeroExtend, BitVec.setWidth_eq_append (by decide)]
  rfl

theorem zero_append_bit3 (v : BitVec 3) : (0 : BitVec 13) ++ v = v.zeroExtend 16 := by
  rw [BitVec.zeroExtend, BitVec.setWidth_eq_append (by decide)]
  rfl

@[simp] theorem getElem_flagBit (b : Bool) : (flagBit b)[0] = b := by cases b <;> rfl

/-- STATUS bit by bit (R36). -/
theorem getLsbD_statusWord (s : State) (k : Nat) : (statusWord s).getLsbD k =
    if k = 0 then s.busy else if k = 1 then s.noline else if k = 2 then s.err else if k = 3 then s.avalid
    else if k = 4 then s.gprint else if k < 7 then s.errCause.getLsbD (k - 5) else false := by
  have h : (statusWord s).getLsbD k = ((0 : BitVec 9) ++ s.errCause ++ flagBit s.gprint ++ flagBit s.avalid ++
    flagBit s.err ++ flagBit s.noline ++ flagBit s.busy).getLsbD k := rfl
  simp only [h, BitVec.getLsbD_append]
  match k with
  | 0 | 1 | 2 | 3 | 4 | 5 | 6 => simp
  | k + 7 => simp

theorem statusWord_errCause (s : State) : (statusWord s).extractLsb' 5 2 = s.errCause := by
  apply BitVec.eq_of_getLsbD_eq
  intro k hk
  have : k + 5 < 7 := by omega
  simp [getLsbD_statusWord, Nat.add_comm 5 k, hk, this]

theorem statusWord_high (s : State) : (statusWord s).extractLsb' 7 9 = 0 := by
  apply BitVec.eq_of_getLsbD_eq
  intro k hk
  simp [getLsbD_statusWord, Nat.add_comm 7 k]

theorem hostReadRegister_status (k : Nat) (s : State) : hostReadRegister k s 0 = statusWord s :=
  if_neg fun h => h.1 rfl

theorem hostReadRegister_of_no_race (k : Nat) {s : State} (h : s.busy = false ∨ s.err = true) (r : BitVec 4) :
    hostReadRegister k s r = hostRegister s r := by
  refine if_neg fun hr => ?_
  rcases h with h | h <;> simp [readRaces, h] at hr

end Machine
end Sys2Proof

open Sys2Proof Sys2Proof.Machine

/-- Settles O51: an exception writes the fault record alone, and a command keeps each part of the invariant on the way
from `beginCommand` to `retireCommand`. -/
theorem stepKeepsTheInvariant : Obligations.StepKeepsTheInvariant := by
  unfold Obligations.StepKeepsTheInvariant
  exact fun _ _ => step_keeps_inv

/-- Settles O10: the command's effect leaves the stream alone, and retiring it consumes its words. -/
theorem completedCommandAdvancesByItsLength : Obligations.CompletedCommandAdvancesByItsLength := by
  unfold Obligations.CompletedCommandAdvancesByItsLength
  intro s t i k hd h
  obtain ⟨hk, hlen⟩ := lengthWords_of_decode hd
  exact ⟨hk, hlen, step_command hd h⟩

/-- Settles O17: an exception consumes nothing, a command its own words. -/
theorem stepConservesTheStream : Obligations.StepConservesTheStream := by
  unfold Obligations.StepConservesTheStream
  intro s t h
  obtain ⟨-, ⟨cause, w, -, rfl⟩ | ⟨i, k, u, hd, -, -⟩⟩ := step_cases h
  · exact ⟨List.suffix_rfl, rfl⟩
  · obtain ⟨hsp, hqueue, -⟩ := step_command hd h
    rw [hsp, hqueue]
    exact ⟨List.drop_suffix k s.queue, sp_add_length_drop s.sp s.queue k (lengthWords_of_decode hd).2⟩

/-- Settles O47: one lemma for each register, over the cases of `Effect`. -/
theorem commandsWriteOnlyTheirOwnState : Obligations.CommandsWriteOnlyTheirOwnState := by
  unfold Obligations.CommandsWriteOnlyTheirOwnState
  intro i s t h
  have heff := (exec_eq_next i s t).1 h
  exact ⟨heff.frame, heff.cursor_writers, heff.noline_writers, heff.address_writers, heff.glyph_writers,
    heff.fb_writers⟩

/-- Settles O50: no path of a command and no answer of it looks at the framebuffer. -/
theorem pixelsNeverReachARegister : Obligations.PixelsNeverReachARegister := by
  unfold Obligations.PixelsNeverReachARegister
  intro i s t m e h
  obtain ⟨m', heff⟩ := ((exec_eq_next i s t).1 h).under_other_fb m e
  exact ⟨m', (exec_eq_next _ _ _).2 heff⟩

/-- Settles O52: every field is at 0, and the ranges of a well-formed configuration leave room for a cursor at 0. -/
theorem resetHasTheInvariant : Obligations.ResetHasTheInvariant := by
  unfold Obligations.ResetHasTheInvariant
  exact ⟨fun _ epoch hc => resetOf_between hc epoch, resetOf_between (by decide) 0⟩

/-- Settles O58: sent words stand behind a faulting header word, and reset needs only the configuration. -/
theorem hostActionsKeepTheInvariant : Obligations.HostActionsKeepTheInvariant := by
  unfold Obligations.HostActionsKeepTheInvariant
  exact fun s ws hs => ⟨hostSend_between hs ws, hostReset_between hs, rfl, rfl⟩

/-- Settles O53, by induction on the run. -/
theorem everyReachableStateHasTheInvariant : Obligations.EveryReachableStateHasTheInvariant := by
  unfold Obligations.EveryReachableStateHasTheInvariant
  intro c s hc hreach
  induction hreach with
  | reset epoch => exact ⟨resetOf_between hc epoch, rfl⟩
  | step s t _ h ih => exact ⟨step_keeps_inv ih.1 h, (step_cfg h).trans ih.2⟩
  | send s ws _ ih => exact ⟨hostSend_between ih.1 ws, ih.2⟩
  | hostReset s _ ih => exact ⟨hostReset_between ih.1, ih.2⟩

/-- Settles O55: STATUS bit by bit, and the others where no read races. -/
theorem hostRegistersFollowTheMap : Obligations.HostRegistersFollowTheMap := by
  unfold Obligations.HostRegistersFollowTheMap
  intro k s
  refine ⟨?_, fun hrace => ?_⟩
  · rw [hostReadRegister_status]
    simp only [getLsbD_statusWord]
    exact ⟨rfl, rfl, rfl, rfl, rfl, statusWord_errCause s, statusWord_high s⟩
  · simp only [hostReadRegister_of_no_race k hrace]
    exact ⟨rfl, rfl, extract_high_append_low s.aidx, zero_append_bit3 s.abit, zero_append_byte s.gwidth,
      extract_high_append_low s.goff, rfl, extract_high_append_low s.errPos, rfl, rfl, rfl, rfl⟩

end

section
/-! PROOFS (memory). The framebuffer's side of a command: the addressing law both ways, what the OR-writes of a list of
points leave, who writes byte 0, that a step looks at no word behind its own command, and when a host read has one
answer (R52 to R66). -/

namespace Sys2Proof

/-! ## Words behind a command -/

/-- The length of a command that is all there is computed from the header and word 1 alone (R82). -/
theorem commandLength_append {op : Opcode} {ws : List Word} {k : Nat} (hk : commandLength op ws.head? = some k)
    (more : List Word) : commandLength op (ws ++ more).head? = some k := by
  cases ws with
  | cons w ws => exact hk
  | nil =>
    cases op with
    | polygon | polyline | text => cases hk
    | _ => exact hk

/-- A command that is all there is read alike whatever words follow it (R82, R86). -/
theorem decode_command_append {ws : List Word} {i : Instr} {k : Nat} (hd : decode ws = .command i k)
    (more : List Word) : decode (ws ++ more) = .command i k := by
  obtain ⟨h, rest, op, rfl, h0, hop, hk, hlen, rfl⟩ := (decode_eq_command ws i k).1 hd
  refine (decode_eq_command _ _ _).2 ⟨h, rest ++ more, op, rfl, h0, hop, commandLength_append hk more, ?_, ?_⟩
  · rw [List.length_append]
    exact Nat.le_add_right_of_le hlen
  · exact (readOperands_append op rest more k hk hlen).symm

/-! ## The addressing law -/

/-- Every index in `1..N-1` is that of a column of a page (R56, R58). -/
theorem Config.exists_pageIndex {c : Config} (hw : 0 < c.width) {i : Nat} (h1 : 1 ≤ i) (hi : i < c.fbLen) :
    ∃ x pg, x < c.width ∧ pg < c.pages ∧ c.pageIndex x pg = i := by
  have hlt : i - 1 < c.pages * c.width := by
    rw [Config.fbLen, Nat.mul_comm] at hi
    omega
  refine ⟨(i - 1) % c.width, (i - 1) / c.width, Nat.mod_lt _ hw, (Nat.div_lt_iff_lt_mul hw).2 hlt, ?_⟩
  have := Nat.mod_add_div' (i - 1) c.width
  unfold Config.pageIndex
  omega

/-- Every bit of a byte in `1..N-1` is that of a pixel on the canvas (R58). -/
theorem Config.exists_pixel {c : Config} (h : c.GeometryWf) {i b : Nat} (h1 : 1 ≤ i) (hi : i < c.fbLen) (hb : b < 8) :
    ∃ x y : Int, c.InBounds x y ∧ c.byteIndex x y = i ∧ bitOffset y = b := by
  obtain ⟨x, pg, hx, hpg, rfl⟩ := Config.exists_pageIndex h.1 h1 hi
  have hheight := Config.height_eq h
  have hpage : (8 * pg + b) / 8 = pg := by omega
  have hbit : (8 * pg + b) % 8 = b := by omega
  refine ⟨x, (8 * pg + b : Nat), by omega, ?_, hbit⟩
  rw [Config.byteIndex_eq_pageIndex, Int.toNat_natCast, Int.toNat_natCast, hpage]

namespace Machine

/-! ## The stream behind a step -/

theorem raiseIllegalCommand_hostSend (cause : IllegalCause) (h : Word) (ws : List Word) (s : State) :
    raiseIllegalCommand cause h (hostSend ws s) = hostSend ws (raiseIllegalCommand cause h s) := rfl

theorem beginCommand_hostSend (ws : List Word) (s : State) :
    beginCommand (hostSend ws s) = hostSend ws (beginCommand s) := rfl

/-- Retiring a command whose words are all queued consumes none of the words behind them (R86). -/
theorem retireCommand_hostSend {k : Nat} {s : State} (hk : k ≤ s.queue.length) (ws : List Word) :
    retireCommand k (hostSend ws s) = hostSend ws (retireCommand k s) := by
  simp only [retireCommand, hostSend, List.drop_append_of_le_length hk]

/-- No command looks at the queue (R37, R64). -/
theorem Effect.under_hostSend {s t : State} {i : Instr} (h : Effect s i t) (ws : List Word) :
    Effect (hostSend ws s) i (hostSend ws t) := by
  cases h with
  | addrInside hb => exact .addrInside hb
  | addrOutside hb => exact .addrOutside hb
  | gqueryPrintable hp => exact .gqueryPrintable hp
  | gqueryOther hp => exact .gqueryOther hp
  | setcur => exact .setcur
  | nextlineAdvances ha => exact .nextlineAdvances ha
  | nextlineFails ha => exact .nextlineFails ha
  | clear => exact .clear
  | raster hr hw => exact .raster hr hw
  | text hw => exact .text hw

/-! ## The framebuffer after writes -/

theorem pixel_withFb (s : State) (m : Memory) (x y : Int) :
    (s.withFb m).pixel x y = (m.byte s.resetEpoch (s.cfg.byteIndex x y)).getLsbD (bitOffset y) := rfl

theorem byte_eq_of_read {m n : Memory} {a : Nat} (h : m.read a = n.read a) (epoch : Nat) :
    m.byte epoch a = n.byte epoch a := by
  rw [Memory.byte, Memory.byte, h]

/-- Writes that do not name an index leave its byte alone. -/
theorem byte_applyWrites_other (epoch : Nat) (m : Memory) {ws : List FbWrite} {a : Nat} (h : ∀ w ∈ ws, w.index ≠ a) :
    (applyWrites epoch m ws).byte epoch a = m.byte epoch a :=
  byte_eq_of_read (read_applyWrites_other epoch m ws a h) epoch

/-- A pixel on the canvas is set by SetPixel calls just when it was set before or is one of their points (R59, R100). -/
theorem pixel_pixelWrites (s : State) (ps : List Point) {x y : Int} (hb : s.cfg.InBounds x y) :
    (s.withFb (applyWrites s.resetEpoch s.fb (pixelWrites s.cfg ps))).pixel x y = true ↔
      s.pixel x y = true ∨ (⟨x, y⟩ : Point) ∈ ps := by
  rw [pixel_withFb, getLsbD_pixelWrites _ _ _ _ _ _ (bitOffset_lt y)]
  refine or_congr_right ⟨?_, fun hp => ⟨⟨x, y⟩, hp, hb, rfl, rfl⟩⟩
  rintro ⟨p, hp, hpb, hbyte, hbit⟩
  obtain ⟨rfl, rfl⟩ := s.cfg.pixel_inj hpb hb hbyte hbit
  exact hp

/-- Calling SetPixel on points completes, ORs those on the canvas into the framebuffer, and writes nothing else (R59,
R100). -/
theorem drawPixels_ors_points {s : State} (hs : s.cfg.wf = true) (ps : List Point) : ∃ t, drawPixels ps s = .next t ∧
    t = { s with fb := t.fb } ∧
    (∀ x y, s.cfg.InBounds x y → (t.pixel x y = true ↔ s.pixel x y = true ∨ (⟨x, y⟩ : Point) ∈ ps)) ∧
    ∀ i, (∀ p ∈ ps, s.cfg.InBounds p.x p.y → s.cfg.byteIndex p.x p.y ≠ i) → t.fbByte i = s.fbByte i := by
  refine ⟨_, drawPixels_next ps s (Config.geometry_of_wf hs), rfl, fun x y => pixel_pixelWrites s ps, fun i hi => ?_⟩
  refine byte_applyWrites_other _ _ fun w hw => ?_
  obtain ⟨p, hp, hb, rfl⟩ := (mem_pixelWrites _ _ _).1 hw
  exact hi p hp hb

/-! ## Byte 0 -/

/-- No SetPixel call writes byte 0, in any geometry (R52). -/
theorem pixelWrites_index_pos (c : Config) (ps : List Point) : ∀ w ∈ pixelWrites c ps, 1 ≤ w.index := by
  intro w hw
  obtain ⟨p, -, -, rfl⟩ := (mem_pixelWrites c ps w).1 hw
  simp only [FbWrite.index, Config.byteIndex]
  omega

/-- CLEAR leaves byte 0 alone but under `CLEAR_HDR = ZERO` (R102). -/
theorem read_clearedFb_zero {c : Config} (h : c.clearHdr ≠ .zero) (m : Memory) : (clearedFb c m).read 0 = m.read 0 := by
  unfold clearedFb
  split
  case h_1 hz => exact absurd hz h
  case h_2 => exact (m.read_fill 1 _ 0 0).trans (if_neg (by omega))

/-- The one writer of byte 0 (R52). -/
theorem Effect.byte_zero {s t : State} {i : Instr} (h : Effect s i t) (hi : ¬(i = .clear ∧ s.cfg.clearHdr = .zero)) :
    t.fbByte 0 = s.fbByte 0 := by
  cases h with
  | clear => exact byte_eq_of_read (read_clearedFb_zero (fun hz => hi ⟨rfl, hz⟩) s.fb) _
  | @raster _ ps =>
    exact byte_applyWrites_other _ _ fun w hw => Nat.ne_of_gt (pixelWrites_index_pos s.cfg ps w hw)
  | @text str =>
    exact byte_applyWrites_other _ _ fun w hw => Nat.ne_of_gt (textRun_index_pos s.cfg str s.cursor w hw)
  | _ => rfl

/-! ## Host reads -/

theorem hostReadFb_of_no_race (k : Nat) {s : State} (h : s.busy = false ∨ s.err = true) {a : Nat}
    (ha : a < s.cfg.fbLen) : hostReadFb k s a = s.fbByte a := by
  refine if_pos ⟨ha, ?_⟩
  rcases h with h | h <;> simp [readRaces, h]

end Machine
end Sys2Proof

open Sys2Proof Sys2Proof.Machine

/-- Settles O16: neither the decoder, nor a command, nor the retiring of its words reaches a word sent later. -/
theorem wordsSentLaterDoNotChangeAStep : Obligations.WordsSentLaterDoNotChangeAStep := by
  unfold Obligations.WordsSentLaterDoNotChangeAStep
  intro s t ws h
  obtain ⟨hwf, herr, hcases⟩ := (step_eq_next s t).1 h
  refine (step_eq_next _ _).2 ⟨hwf, herr, ?_⟩
  obtain ⟨cause, w, hd, rfl⟩ | ⟨i, k, u, hd, hexec, rfl⟩ := hcases
  · exact .inl ⟨cause, w, (decode_illegal_append s.queue ws cause w hd).2,
      (raiseIllegalCommand_hostSend cause w ws s).symm⟩
  · have heff := (exec_eq_next _ _ _).1 hexec
    have hlen : k ≤ u.queue.length := heff.queue_eq ▸ (lengthWords_of_decode hd).2
    refine .inr ⟨i, k, hostSend ws u, decode_command_append hd ws, ?_, (retireCommand_hostSend hlen ws).symm⟩
    rw [beginCommand_hostSend]
    exact (exec_eq_next _ _ _).2 (heff.under_hostSend ws)

/-- Settles O19: the range, the injectivity and the surjectivity of the addressing law are a lemma each. -/
theorem addressingLawIsABijection : Obligations.AddressingLawIsABijection := by
  unfold Obligations.AddressingLawIsABijection
  intro c hc
  have hgeo := Config.geometry_of_wf hc
  refine ⟨fun x y hb => ?_, fun x y u v => c.pixel_inj, fun i b h1 hi hb => ?_⟩
  · obtain ⟨hpos, hlt⟩ := Config.byteIndex_range hgeo hb
    exact ⟨hpos, Nat.le_pred_of_lt hlt, bitOffset_lt y⟩
  · exact Config.exists_pixel hgeo h1 (by omega) hb

/-- Settles O24: LINE is SetPixel on the points of DrawLine. -/
theorem lineOrsItsPoints : Obligations.LineOrsItsPoints := by
  unfold Obligations.LineOrsItsPoints
  exact fun _ _ _ _ _ hs => drawPixels_ors_points hs _

/-- Settles O29: CIRCLE is SetPixel on the points of DrawCircle. -/
theorem circleOrsItsPoints : Obligations.CircleOrsItsPoints := by
  unfold Obligations.CircleOrsItsPoints
  exact fun _ _ _ _ hs => drawPixels_ors_points hs _

/-- Settles O48: the writes of every other command go to index 1 or above, from any state. -/
theorem onlyClearWritesTheReservedByte : Obligations.OnlyClearWritesTheReservedByte := by
  unfold Obligations.OnlyClearWritesTheReservedByte
  exact fun i s t h => ((exec_eq_next i s t).1 h).byte_zero

/-- Settles O56: only a race gives a read a free value, and STATUS never races. -/
theorem hostReadsAreDefinedWhenNoCommandExecutes : Obligations.HostReadsAreDefinedWhenNoCommandExecutes := by
  unfold Obligations.HostReadsAreDefinedWhenNoCommandExecutes
  intro k s
  exact ⟨hostReadRegister_status k s, fun hrace => ⟨hostReadRegister_of_no_race k hrace,
    fun a ha => hostReadFb_of_no_race k hrace ha⟩⟩

end

section
/-! PROOFS (encoding). The decoder told by the value of a header and the length check, the encoder's words read back, and
the words a command was read from found again in its encoding (R81 to R88). -/

namespace Sys2Proof

open Laws Machine

/-! ## The header -/

/-- The value of a legal header (R84). -/
def opcodeValue : Opcode → Nat
  | .addr => 0x01
  | .clear => 0x02
  | .pset => 0x03
  | .line => 0x04
  | .circle => 0x05
  | .polygon => 0x06
  | .polyline => 0x07
  | .setcur => 0x08
  | .nextline => 0x09
  | .text => 0x0A
  | .gquery => 0x0B

theorem toNat_of_opcodeOf {b : Byte} {op : Opcode} (h : opcodeOf b = some op) : b.toNat = opcodeValue op := by
  unfold opcodeOf at h
  split at h <;> cases h <;> assumption

/-- A legal header is the one word of its opcode's value: its bits [15:8] are 0 (R81, R84). -/
theorem legal_header_iff (h : Word) (op : Opcode) :
    headerRsv h = 0 ∧ opcodeOf (headerOp h) = some op ↔ h.toNat = opcodeValue op := by
  constructor
  · rintro ⟨hrsv, hop⟩
    have hhigh : h.toNat / 256 = 0 := by rw [← toNat_headerRsv, hrsv]; rfl
    have hlow : h.toNat % 256 = opcodeValue op := by rw [← toNat_headerOp, toNat_of_opcodeOf hop]
    omega
  · intro hv
    obtain rfl : h = BitVec.ofNat 16 (opcodeValue op) := by rw [← hv, BitVec.ofNat_toNat, BitVec.setWidth_eq]
    cases op <;> exact ⟨rfl, rfl⟩

/-! ## The length check -/

section
variable {h : Word} {ws : List Word} {op : Opcode} (hh : h.toNat = opcodeValue op)
include hh

/-- A command whose words are all there is read (R82, R86). -/
theorem decode_complete {k : Nat} (hk : commandLength op ws.head? = some k) (hlen : k ≤ ws.length + 1) :
    decode (h :: ws) = .command (readOperands op ws) k := by
  obtain ⟨hrsv, hop⟩ := (legal_header_iff h op).2 hh
  exact (decode_eq_command _ _ _).2 ⟨h, ws, op, rfl, hrsv, hop, hk, hlen, rfl⟩

/-- The engine waits for the word its length is computed from (R82, R226). -/
theorem decode_without_length (hk : commandLength op ws.head? = none) : decode (h :: ws) = .incomplete := by
  obtain ⟨hrsv, hop⟩ := (legal_header_iff h op).2 hh
  rw [decode_cons h ws op hrsv hop, hk]

/-- The engine waits while a word of the command is missing (R226). -/
theorem decode_short {k : Nat} (hk : commandLength op ws.head? = some k) (hlen : ws.length + 1 < k) :
    decode (h :: ws) = .incomplete := by
  obtain ⟨hrsv, hop⟩ := (legal_header_iff h op).2 hh
  simp only [decode_cons h ws op hrsv hop, hk, if_pos hlen]

/-- The length check, with `P` for "all the words are there" (R82, R226). -/
theorem decode_waits {k : Nat} (hk : commandLength op ws.head? = some k) {P : Prop} [Decidable P]
    (hP : P ↔ k ≤ ws.length + 1) :
    if P then ∃ i, decode (h :: ws) = .command i k else decode (h :: ws) = .incomplete := by
  split
  · next hp => exact ⟨_, decode_complete hh hk (hP.1 hp)⟩
  · next hp => exact decode_short hh hk (Nat.lt_of_not_le (mt hP.2 hp))

end

/-! ## The encoder's words read back -/

/-- Every command is encoded with the header of its opcode (R81, R84). -/
theorem encode_header (i : Instr) : EncodeHeader.Statement i := by
  cases i <;> exact ⟨_, _, rfl, rfl, rfl⟩

theorem encode_eq_cons (i : Instr) : ∃ h, encode i = h :: (encode i).tail ∧ h.toNat = opcodeValue (instrOpcode i) := by
  obtain ⟨h, rest, he, hlegal⟩ := encode_header i
  exact ⟨h, by rw [he, List.tail_cons], (legal_header_iff _ _).1 hlegal⟩

/-- The count in word 1 is the number of vertices or characters, so the length computed from it is the command's (R82). -/
theorem commandLength_encode {i : Instr} (hi : i.wf = true) :
    commandLength (instrOpcode i) (encode i).tail.head? = some i.lengthWords := by
  cases i with
  | polygon vs | polyline vs =>
    obtain ⟨hn, -⟩ : isU16 vs.length = true ∧ vs.all Point.wf = true := Bool.and_eq_true_iff.1 hi
    exact congrArg (fun n => some (2 + 2 * n)) (toNat_ofNat16 _ hn)
  | text s => exact congrArg (fun n => some (2 + (n + 1) / 2)) (toNat_ofNat16 _ hi)
  | _ => rfl

/-- No bit of a well-formed operand is dropped (R83, R85). -/
theorem readOperands_encode {i : Instr} (hi : i.wf = true) : readOperands (instrOpcode i) (encode i).tail = i := by
  cases i with
  | clear => rfl
  | nextline => rfl
  | gquery c => exact congrArg Instr.gquery (lowByte_append 0 c)
  | polygon vs | polyline vs =>
    obtain ⟨hn, hvs⟩ : isU16 vs.length = true ∧ vs.all Point.wf = true := Bool.and_eq_true_iff.1 hi
    have hread := readVertices_encode vs hvs []
    rw [List.append_nil] at hread
    simp [instrOpcode, encode, readOperands, readU16, operandWord, toNat_ofNat16 _ hn, hread]
  | text s =>
    have hread := readChars_packChars s []
    rw [List.append_nil] at hread
    simp [instrOpcode, encode, readOperands, readU16, operandWord, toNat_ofNat16 _ hi, hread]
  | _ =>
    simp only [Instr.wf, Bool.and_eq_true] at hi
    simp only [instrOpcode, encode, List.tail_cons, readOperands, readS16, operandWord, List.getD_cons_zero,
      List.getD_cons_succ, toInt_ofInt16, hi]

theorem decode_encode {i : Instr} (hi : i.wf = true) : decode (encode i) = .command i i.lengthWords := by
  obtain ⟨h, he, hh⟩ := encode_eq_cons i
  have hlen : i.lengthWords = (encode i).tail.length + 1 := by rw [← length_encode, he]; rfl
  have hd := decode_complete hh (commandLength_encode hi) hlen.le
  rwa [← he, readOperands_encode hi] at hd

/-! ## Vertices and characters word by word -/

/-- Vertex `k` is read from words `2k` and `2k+1` (R85). -/
theorem getElem?_readVertices (n : Nat) (ws : List Word) (h : 2 * n ≤ ws.length) (k : Nat) (hk : k < n) :
    (readVertices n ws)[k]? = some ⟨(ws.getD (2 * k) 0).toInt, (ws.getD (2 * k + 1) 0).toInt⟩ := by
  induction n generalizing ws k with
  | zero => cases hk
  | succ n ih =>
    match ws, h with
    | x :: y :: ws, h =>
      simp only [List.length_cons] at h
      cases k with
      | zero => rfl
      | succ k => exact ih ws (by omega) k (by omega)

/-- Character `j` is read from word `j / 2`: bits [7:0] for an even `j`, bits [15:8] for an odd one (R83, R85). -/
theorem getElem?_readChars (n : Nat) (ws : List Word) (h : (n + 1) / 2 ≤ ws.length) (k : Nat) :
    (2 * k < n → (readChars n ws)[2 * k]? = some (lowByte (ws.getD k 0))) ∧
      (2 * k + 1 < n → (readChars n ws)[2 * k + 1]? = some (highByte (ws.getD k 0))) := by
  induction n using Nat.twoStepInduction generalizing ws k with
  | zero => exact ⟨fun hk => by omega, fun hk => by omega⟩
  | one =>
    match ws, h with
    | w :: ws, _ =>
      refine ⟨fun hk => ?_, fun hk => by omega⟩
      obtain rfl : k = 0 := by omega
      rfl
  | more n ih _ =>
    match ws, h with
    | [], h => simp at h
    | w :: ws, h =>
      rw [List.length_cons] at h
      cases k with
      | zero => exact ⟨fun _ => rfl, fun _ => rfl⟩
      | succ k =>
        obtain ⟨hlow, hhigh⟩ := ih ws (by omega) k
        exact ⟨fun hk => hlow (by omega), fun hk => hhigh (by omega)⟩

theorem toNat_lowByte (w : Word) : (lowByte w).toNat = w.toNat % 256 := toNat_headerOp w

theorem toNat_highByte (w : Word) : (highByte w).toNat = w.toNat / 256 := toNat_headerRsv w

/-- The pad byte of an odd number of characters is not read (R83). -/
theorem readChars_pad {n : Nat} {ws : List Word} (hn : n = 2 * ws.length + 1) {w w' : Word}
    (hw : lowByte w = lowByte w') (more : List Word) :
    readChars n (ws ++ w :: more) = readChars n (ws ++ w' :: more) := by
  subst hn
  induction ws with
  | nil => exact congrArg (fun b => [b]) hw
  | cons v ws ih => exact congrArg (fun s => lowByte v :: highByte v :: s) ih

/-! ## The words a command was read from, found again in its encoding -/

theorem isS16_toInt (w : Word) : isS16 w.toInt = true := by
  have hlow := BitVec.le_toInt w
  have hhigh := BitVec.toInt_lt (x := w)
  exact decide_eq_true (by omega)

theorem isU16_toNat (w : Word) : isU16 w.toNat = true := decide_eq_true (by have := w.isLt; omega)

theorem readVertices_wf (n : Nat) (ws : List Word) : (readVertices n ws).all Point.wf = true := by
  induction n, ws using readVertices.induct with
  | case1 n x y ws ih => simp [readVertices, ih, Point.wf, isS16_toInt]
  | case2 n ws hshort => rw [readVertices.eq_2 n ws hshort, List.all_nil]

/-- What the decoder reads from words that are all there is well-formed (R83). -/
theorem wf_readOperands {op : Opcode} {ws : List Word} {k : Nat} (hk : commandLength op ws.head? = some k)
    (h : k ≤ ws.length + 1) : (readOperands op ws).wf = true := by
  cases op <;> simp only [commandLength, Option.map_eq_some_iff, Option.some.injEq] at hk
  case polygon | polyline =>
    obtain ⟨n, hn, rfl⟩ := hk
    match ws, hn with
    | n :: ws, rfl =>
      rw [List.length_cons] at h
      have hcount : isU16 (readVertices n.toNat ws).length = true := by
        rw [length_readVertices n.toNat ws (by omega)]
        exact isU16_toNat n
      exact Bool.and_eq_true_iff.2 ⟨hcount, readVertices_wf n.toNat ws⟩
  case text =>
    obtain ⟨n, hn, rfl⟩ := hk
    match ws, hn with
    | n :: ws, rfl =>
      rw [List.length_cons] at h
      have hcount : isU16 (readChars n.toNat ws).length = true := by
        rw [length_readChars n.toNat ws (by omega)]
        exact isU16_toNat n
      exact hcount
  all_goals simp [readOperands, Instr.wf, readS16, isS16_toInt]

theorem encode_readVertices (n : Nat) (ws : List Word) (h : 2 * n ≤ ws.length) :
    (readVertices n ws).flatMap encodeVertex = ws.take (2 * n) := by
  induction n generalizing ws with
  | zero => simp [readVertices]
  | succ n ih =>
    match ws, h with
    | x :: y :: ws, h =>
      simp only [List.length_cons] at h
      simp [readVertices, encodeVertex, ih ws (by omega), Nat.mul_succ]

/-- Characters are packed where they were read from; only the pad byte of an odd number may differ (R83, R85). -/
theorem packChars_readChars (n : Nat) (ws : List Word) (h : (n + 1) / 2 ≤ ws.length) (j : Nat) (hj : 2 * j < n) :
    lowByte ((packChars (readChars n ws)).getD j 0) = lowByte (ws.getD j 0) ∧
      (2 * j + 1 < n → highByte ((packChars (readChars n ws)).getD j 0) = highByte (ws.getD j 0)) := by
  induction n using Nat.twoStepInduction generalizing ws j with
  | zero => omega
  | one =>
    match ws, h with
    | w :: ws, _ =>
      obtain rfl : j = 0 := by omega
      exact ⟨lowByte_append 0 (lowByte w), fun hj => by omega⟩
  | more n ih _ =>
    match ws, h with
    | [], h => simp at h
    | w :: ws, h =>
      rw [List.length_cons] at h
      cases j with
      | zero => exact ⟨lowByte_append (highByte w) (lowByte w), fun _ => highByte_append (highByte w) (lowByte w)⟩
      | succ j =>
        obtain ⟨hlow, hhigh⟩ := ih ws (by omega) j (by omega)
        exact ⟨hlow, fun hj => hhigh (by omega)⟩

theorem instrOpcode_readOperands (op : Opcode) (ws : List Word) : instrOpcode (readOperands op ws) = op := by
  cases op <;> rfl

/-- The header encoded is the header read. -/
theorem encode_readOperands_eq_cons {h : Word} {op : Opcode} (hh : h.toNat = opcodeValue op) (ws : List Word) :
    encode (readOperands op ws) = h :: (encode (readOperands op ws)).tail := by
  obtain ⟨h', he, hh'⟩ := encode_eq_cons (readOperands op ws)
  rw [instrOpcode_readOperands, ← hh] at hh'
  rwa [BitVec.eq_of_toNat_eq hh'] at he

/-- Word 1 and the vertices of POLYGON and POLYLINE come back (R85). -/
theorem getD_encode_vertices (n : Word) (ws : List Word) (h : 2 * n.toNat ≤ ws.length) (j : Nat) (hj : j ≤ 2 * n.toNat) :
    (BitVec.ofNat 16 (readVertices n.toNat ws).length :: (readVertices n.toNat ws).flatMap encodeVertex).getD j 0 =
      (n :: ws).getD j 0 := by
  rw [length_readVertices n.toNat ws h, encode_readVertices n.toNat ws h, BitVec.ofNat_toNat, BitVec.setWidth_eq]
  cases j with
  | zero => rfl
  | succ j => simp [Nat.lt_of_succ_le hj]

/-- Where no bit is ignored, the operand words come back as they were read (R83). -/
theorem getD_encode_readOperands {op : Opcode} {ws : List Word} {k : Nat} (htext : op ≠ .text) (hgquery : op ≠ .gquery)
    (hk : commandLength op ws.head? = some k) (h : k ≤ ws.length + 1) (j : Nat) (hj : j + 1 < k) :
    (encode (readOperands op ws)).tail.getD j 0 = ws.getD j 0 := by
  cases op <;> simp only [commandLength, Option.map_eq_some_iff, Option.some.injEq] at hk
  case text => exact absurd rfl htext
  case gquery => exact absurd rfl hgquery
  case polygon | polyline =>
    obtain ⟨n, hn, rfl⟩ := hk
    match ws, hn with
    | n :: ws, rfl =>
      rw [List.length_cons] at h
      exact getD_encode_vertices n ws (by omega) j (by omega)
  all_goals
    subst hk
    replace hj := Nat.lt_of_succ_lt_succ hj
    interval_cases j <;> exact BitVec.ofInt_toInt

/-- A TEXT comes back but for the pad byte of its last word (R83). -/
theorem encode_readChars_agrees (l : Word) (ws : List Word) (h : (l.toNat + 1) / 2 ≤ ws.length) (j : Nat)
    (hj : j ≤ (l.toNat + 1) / 2) :
    lowByte ((encode (.text (readChars l.toNat ws))).tail.getD j 0) = lowByte ((l :: ws).getD j 0) ∧
      (2 * j ≤ l.toNat →
        highByte ((encode (.text (readChars l.toNat ws))).tail.getD j 0) = highByte ((l :: ws).getD j 0)) := by
  rw [encode, List.tail_cons, length_readChars l.toNat ws h, BitVec.ofNat_toNat, BitVec.setWidth_eq]
  cases j with
  | zero => exact ⟨rfl, fun _ => rfl⟩
  | succ j =>
    obtain ⟨hlow, hhigh⟩ := packChars_readChars l.toNat ws h j (by omega)
    exact ⟨hlow, fun hj => hhigh (by omega)⟩

/-! ## The step on a whole command -/

theorem Machine.step_of_command {s : State} {i : Instr} {k : Nat} (hwf : s.cfg.wf = true) (herr : s.err = false)
    (hd : decode s.queue = .command i k) : step s = retire k (exec i (beginCommand s)) := by
  simp [step, hwf, herr, hd]

end Sys2Proof

open Sys2Proof Sys2Proof.Machine

/-- Settles O3: the encoder's header, its length and its operands read back, and the words behind them are not looked at. -/
theorem assembledWordsDecodeToTheirCommand : Obligations.AssembledWordsDecodeToTheirCommand := by
  unfold Obligations.AssembledWordsDecodeToTheirCommand
  intro i ws more h
  obtain ⟨hi, rfl⟩ : i.wf = true ∧ encode i = ws := by simpa [assemble] using h
  rw [length_encode]
  exact decode_command_append (decode_encode hi) more

/-- Settles O2: a command of fixed length is read by evaluation, vertices and characters by induction on their count. -/
theorem everyCommandReadsItsWordsInOrder : Obligations.EveryCommandReadsItsWordsInOrder := by
  unfold Obligations.EveryCommandReadsItsWordsInOrder
  refine ⟨fun x y => rfl, rfl, fun x y => rfl, fun x1 y1 x2 y2 => rfl, fun cx cy r => rfl, fun n ws hws => ?_,
    fun col row => rfl, rfl, fun l ws hws => ?_, fun c => ?_⟩
  · have hlen : 2 + 2 * n.toNat ≤ (n :: ws).length + 1 := by rw [List.length_cons]; omega
    exact ⟨readVertices n.toNat ws, decode_complete (op := .polygon) rfl rfl hlen,
      decode_complete (op := .polyline) rfl rfl hlen, length_readVertices n.toNat ws hws.ge,
      getElem?_readVertices n.toNat ws hws.ge⟩
  · have hlen : 2 + (l.toNat + 1) / 2 ≤ (l :: ws).length + 1 := by rw [List.length_cons]; omega
    refine ⟨readChars l.toNat ws, decode_complete (op := .text) rfl rfl hlen, length_readChars l.toNat ws hws.ge,
      fun k hk => ?_, fun k hk => ?_⟩
    · rw [(getElem?_readChars l.toNat ws hws.ge k).1 hk, Option.map_some, toNat_lowByte]
    · rw [(getElem?_readChars l.toNat ws hws.ge k).2 hk, Option.map_some, toNat_highByte]
  · rw [← toNat_lowByte, BitVec.ofNat_toNat, BitVec.setWidth_eq]
    rfl

/-- Settles O4: the header is the only one of its opcode, and the operand words come back by the cases of the opcode. -/
theorem decodedCommandEncodesToItsWords : Obligations.DecodedCommandEncodesToItsWords := by
  unfold Obligations.DecodedCommandEncodesToItsWords
  intro ws i k hd
  obtain ⟨hk, hlen⟩ := lengthWords_of_decode hd
  obtain ⟨h, rest, op, rfl, hrsv, hop, hcount, hwords, rfl⟩ := (decode_eq_command ws i k).1 hd
  refine ⟨wf_readOperands hcount hwords, hk, hlen, (length_encode _).trans hk.symm, fun j hj => ?_⟩
  rw [encode_readOperands_eq_cons ((legal_header_iff h op).1 ⟨hrsv, hop⟩) rest]
  cases j with
  | zero => exact ⟨rfl, .inl rfl⟩
  | succ j =>
    simp only [List.getD_cons_succ]
    by_cases htext : op = .text
    · subst htext
      obtain ⟨l, hl, rfl⟩ := Option.map_eq_some_iff.1 hcount
      match rest, hl with
      | l :: rest, rfl =>
        simp only [List.length_cons] at hwords
        obtain ⟨hlow, hhigh⟩ := encode_readChars_agrees l rest (by omega) j (by omega)
        refine ⟨hlow, (Nat.lt_or_ge l.toNat (2 * j)).elim (fun hpad => .inr (.inr ?_)) (fun hj => .inl (hhigh hj))⟩
        have hchars := length_readChars l.toNat rest (by omega)
        exact ⟨readChars l.toNat rest, rfl, by omega, by omega⟩
    · by_cases hgquery : op = .gquery
      · subst hgquery
        obtain rfl : 2 = k := Option.some.inj hcount
        obtain rfl : j = 0 := by omega
        exact ⟨lowByte_append 0 _, .inr (.inl ⟨_, rfl, rfl⟩)⟩
      · rw [getD_encode_readOperands htext hgquery hcount hwords j hj]
        exact ⟨rfl, .inl rfl⟩

/-- Settles O6: the length check on each opcode, by the header's value. -/
theorem commandLengthsDecideWhetherTheEngineWaits : Obligations.CommandLengthsDecideWhetherTheEngineWaits := by
  unfold Obligations.CommandLengthsDecideWhetherTheEngineWaits
  intro h ws
  refine ⟨?one, ?two, ?three, ?four, ?five, ?noCount, ?vertices, ?chars⟩
  case one =>
    rintro (hh | hh)
    · exact ⟨_, decode_complete (op := .clear) hh rfl (Nat.le_add_left 1 _)⟩
    · exact ⟨_, decode_complete (op := .nextline) hh rfl (Nat.le_add_left 1 _)⟩
  case two => exact fun hh => decode_waits (op := .gquery) hh rfl Nat.succ_le_succ_iff.symm
  case three =>
    rintro (hh | hh | hh)
    · exact decode_waits (op := .addr) hh rfl Nat.succ_le_succ_iff.symm
    · exact decode_waits (op := .pset) hh rfl Nat.succ_le_succ_iff.symm
    · exact decode_waits (op := .setcur) hh rfl Nat.succ_le_succ_iff.symm
  case four => exact fun hh => decode_waits (op := .circle) hh rfl Nat.succ_le_succ_iff.symm
  case five => exact fun hh => decode_waits (op := .line) hh rfl Nat.succ_le_succ_iff.symm
  case noCount =>
    rintro (hh | hh | hh) rfl
    · exact decode_without_length (op := .polygon) hh rfl
    · exact decode_without_length (op := .polyline) hh rfl
    · exact decode_without_length (op := .text) hh rfl
  case vertices =>
    rintro (hh | hh) n rest rfl
    · exact decode_waits (op := .polygon) hh rfl (by rw [List.length_cons]; omega)
    · exact decode_waits (op := .polyline) hh rfl (by rw [List.length_cons]; omega)
  case chars =>
    rintro hh l rest rfl
    exact decode_waits (op := .text) hh rfl (by rw [List.length_cons]; omega)

/-- Settles O7: GQUERY reads the low byte of its word alone, and an odd TEXT the low byte of its last word. -/
theorem ignoredBitsDoNotChangeTheCommand : Obligations.IgnoredBitsDoNotChangeTheCommand := by
  unfold Obligations.IgnoredBitsDoNotChangeTheCommand
  constructor
  · intro w w' ws hw
    exact congrArg (fun c => Decoded.command (.gquery c) 2) hw
  · intro l w w' ws more hodd hws hw
    have hl : l.toNat = 2 * ws.length + 1 := by omega
    have hread : readOperands .text (l :: (ws ++ w :: more)) = readOperands .text (l :: (ws ++ w' :: more)) :=
      congrArg Instr.text (readChars_pad hl hw more)
    have hlen (v : Word) : 2 + (l.toNat + 1) / 2 ≤ (l :: (ws ++ v :: more)).length + 1 := by
      simp only [List.length_cons, List.length_append]; omega
    rw [decode_complete (op := .text) rfl rfl (hlen w), decode_complete (op := .text) rfl rfl (hlen w'), hread]

/-- Settles O8: both halves are lemmas about the decoder alone. -/
theorem laterWordsDoNotChangeWhatIsRead : Obligations.LaterWordsDoNotChangeWhatIsRead := by
  unfold Obligations.LaterWordsDoNotChangeWhatIsRead
  intro ws more
  exact ⟨fun i k hd => decode_command_append hd more, fun cause h hd => (decode_illegal_append ws more cause h hd).2⟩

/-- Settles O1: the decoder evaluated on each sequence. -/
theorem specWordsDecodeToTheirCommands : Obligations.SpecWordsDecodeToTheirCommands := by
  unfold Obligations.SpecWordsDecodeToTheirCommands
  decide

/-- Settles O9: the step is `beginCommand`, the command's effect, and `retireCommand` on what it answers. -/
theorem stepExecutesTheDecodedCommand : Obligations.StepExecutesTheDecodedCommand := by
  unfold Obligations.StepExecutesTheDecodedCommand
  intro s i k hwf herr hd
  rw [step_of_command hwf herr hd, beginCommand]
  cases exec i { s with busy := true } <;> rfl

end

section
/-! PROOFS (framebuffer). ADDR, CLEAR and PSET: what a CLEAR leaves at each index, the one OR-write of a PSET and the
algebra of OR-writes, and that no command reaches an index of `N` or above (R100 to R106). -/

namespace Sys2Proof
namespace Machine

/-- The last byte of the framebuffer has an index below 2^28 (R101's corner case). -/
theorem fbLen_pred_lt {c : Config} (h : c.GeometryWf) : c.fbLen - 1 < 2 ^ 28 := by
  have hpages := Config.pages_le h
  obtain ⟨-, hwidth, -⟩ := h
  have : c.width * c.pages ≤ 32767 * 4095 := Nat.mul_le_mul hwidth hpages
  unfold Config.fbLen
  omega

/-! ## CLEAR -/

/-- What CLEAR leaves listed at each index, under both values of `CLEAR_HDR` (R102). -/
theorem read_clearedFb (c : Config) (m : Memory) (a : Nat) : (clearedFb c m).read a =
    if a < c.fbLen ∧ (1 ≤ a ∨ c.clearHdr = .zero) then some 0 else m.read a := by
  have hlen : 1 ≤ c.fbLen := Nat.le_add_right 1 _
  unfold clearedFb
  split <;> rw [Memory.read_fill] <;> refine if_congr ?_ rfl rfl
  case h_1 hz => simp only [hz, or_true, and_true]; omega
  case h_2 hk => simp only [hk, reduceCtorEq, or_false]; omega

theorem byte_clearedFb_inside {c : Config} {a : Nat} (ha : a < c.fbLen) (hz : 1 ≤ a ∨ c.clearHdr = .zero) (epoch : Nat)
    (m : Memory) : (clearedFb c m).byte epoch a = 0 := by
  rw [Memory.byte, read_clearedFb, if_pos ⟨ha, hz⟩, Option.getD_some]

theorem read_clearedFb_outside {c : Config} {a : Nat} (ha : c.fbLen ≤ a) (m : Memory) :
    (clearedFb c m).read a = m.read a := by
  rw [read_clearedFb, if_neg fun h => absurd h.1 (Nat.not_lt.2 ha)]

/-! ## OR-writes -/

theorem read_apply_orBit (epoch : Nat) (m : Memory) (i b a : Nat) :
    (FbWrite.apply epoch m (.orBit i b)).read a =
      if i = a then some (m.byte epoch i ||| (1 : Byte) <<< b) else m.read a :=
  Memory.read_write ..

/-- Two OR-writes of a canonical framebuffer commute, to one byte or to two (R104). -/
theorem apply_orBit_comm (epoch : Nat) {m : Memory} (hm : m.wf) (i b j d : Nat) :
    FbWrite.apply epoch (FbWrite.apply epoch m (.orBit i b)) (.orBit j d) =
      FbWrite.apply epoch (FbWrite.apply epoch m (.orBit j d)) (.orBit i b) := by
  refine Memory.ext_of_read _ _ (apply_wf _ _ _ (apply_wf _ _ _ hm)) (apply_wf _ _ _ (apply_wf _ _ _ hm)) fun a => ?_
  simp only [read_apply_orBit, byte_apply_orBit]
  by_cases hij : i = j
  · subst hij
    rw [if_pos rfl, if_pos rfl, BitVec.or_assoc, BitVec.or_assoc, BitVec.or_comm ((1 : Byte) <<< b)]
    by_cases hi : i = a <;> simp [hi]
  · by_cases hi : i = a
    · simp [hi, show j ≠ a by omega]
    · simp [hi, hij]

/-- An OR-write done twice is that OR-write done once (R104). -/
theorem apply_orBit_twice (epoch : Nat) {m : Memory} (hm : m.wf) (i b : Nat) :
    FbWrite.apply epoch (FbWrite.apply epoch m (.orBit i b)) (.orBit i b) = FbWrite.apply epoch m (.orBit i b) := by
  refine Memory.ext_of_read _ _ (apply_wf _ _ _ (apply_wf _ _ _ hm)) (apply_wf _ _ _ hm) fun a => ?_
  simp only [read_apply_orBit, byte_apply_orBit, if_true, BitVec.or_assoc, BitVec.or_self]
  split <;> rfl

/-! ## PSET -/

/-- The framebuffer after SetPixel of `p`. -/
def setPixelFb (c : Config) (epoch : Nat) (m : Memory) (p : Point) : Memory := applyWrites epoch m (pixelWrites c [p])

/-- SetPixel in bounds is one OR-write (R100). -/
theorem setPixelFb_inside {c : Config} {p : Point} (hb : c.InBounds p.x p.y) (epoch : Nat) (m : Memory) :
    setPixelFb c epoch m p = FbWrite.apply epoch m (.orBit (c.byteIndex p.x p.y) (bitOffset p.y)) := by
  rw [setPixelFb, pixelWrites_cons, if_pos hb]; rfl

section
variable {c : Config} {x y : Int} (hb : c.InBounds x y) (epoch : Nat) (m : Memory)
include hb

/-- The byte of a pixel in bounds has that pixel's bit set after SetPixel, and the other seven kept (R100). -/
theorem byte_setPixelFb_same : (setPixelFb c epoch m ⟨x, y⟩).byte epoch (c.byteIndex x y) =
    m.byte epoch (c.byteIndex x y) ||| (1 : Byte) <<< bitOffset y := by
  rw [setPixelFb_inside hb]
  exact (byte_apply_orBit ..).trans (if_pos rfl)

theorem byte_setPixelFb_other {i : Nat} (hi : c.byteIndex x y ≠ i) :
    (setPixelFb c epoch m ⟨x, y⟩).byte epoch i = m.byte epoch i := by
  rw [setPixelFb_inside hb]
  exact (byte_apply_orBit ..).trans (if_neg hi)

end

/-- SetPixel out of bounds does nothing (R100). -/
theorem setPixelFb_outside {c : Config} {p : Point} (hb : ¬c.InBounds p.x p.y) (epoch : Nat) (m : Memory) :
    setPixelFb c epoch m p = m := by
  rw [setPixelFb, pixelWrites_cons, if_neg hb]; rfl

section
variable (c : Config) (epoch : Nat) {m : Memory} (hm : m.wf) (p q : Point)
include hm

theorem setPixelFb_comm :
    setPixelFb c epoch (setPixelFb c epoch m p) q = setPixelFb c epoch (setPixelFb c epoch m q) p := by
  by_cases hp : c.InBounds p.x p.y
  · by_cases hq : c.InBounds q.x q.y
    · simp only [setPixelFb_inside hp, setPixelFb_inside hq]
      exact apply_orBit_comm epoch hm _ _ _ _
    · simp only [setPixelFb_outside hq]
  · simp only [setPixelFb_outside hp]

theorem setPixelFb_twice : setPixelFb c epoch (setPixelFb c epoch m p) p = setPixelFb c epoch m p := by
  by_cases hp : c.InBounds p.x p.y
  · simp only [setPixelFb_inside hp]
    exact apply_orBit_twice epoch hm _ _
  · simp only [setPixelFb_outside hp]

end

/-- PSET is SetPixel of its one point, and completes (R103). -/
theorem exec_pset {s : State} (hs : s.cfg.wf = true) (x y : Int) :
    exec (.pset x y) s = .next (s.withFb (setPixelFb s.cfg s.resetEpoch s.fb ⟨x, y⟩)) :=
  drawPixels_next _ _ (Config.geometry_of_wf hs)

/-- A PSET after another command's framebuffer writes. -/
theorem exec_pset_withFb {s : State} (hs : s.cfg.wf = true) (m : Memory) (x y : Int) :
    exec (.pset x y) (s.withFb m) = .next (s.withFb (setPixelFb s.cfg s.resetEpoch m ⟨x, y⟩)) :=
  exec_pset (s := s.withFb m) hs x y

/-! ## The end of the framebuffer -/

/-- No command writes an index of `N` or above (R106, R190). -/
theorem Effect.read_past_end {s t : State} {i : Instr} (h : Effect s i t) {a : Nat} (ha : s.cfg.fbLen ≤ a) :
    t.fb.read a = s.fb.read a := by
  cases h with
  | clear => exact read_clearedFb_outside ha s.fb
  | raster hr hw => exact read_applyWrites_other _ _ _ _ fun w hmem => Nat.ne_of_lt ((hw w hmem).trans_le ha)
  | text hw => exact read_applyWrites_other _ _ _ _ fun w hmem => Nat.ne_of_lt ((hw w hmem).trans_le ha)
  | _ => rfl

end Machine
end Sys2Proof

open Sys2Proof Sys2Proof.Machine

/-- Settles O18: the two branches of ADDR, and the range of an in-bounds index. -/
theorem addrAnswersTheAddressingLaw : Obligations.AddrAnswersTheAddressingLaw := by
  unfold Obligations.AddrAnswersTheAddressingLaw
  intro s x y
  refine ⟨fun hb => ⟨(exec_eq_next _ _ _).2 (.addrInside hb), fun hs => ?_⟩, fun hb =>
    (exec_eq_next _ _ _).2 (.addrOutside hb)⟩
  have hgeo := Config.geometry_of_wf hs
  obtain ⟨hpos, hlt⟩ := Config.byteIndex_range hgeo hb
  exact ⟨hpos, Nat.le_pred_of_lt hlt, fbLen_pred_lt hgeo⟩

/-- Settles O20: each clause is one range of indices of the cleared framebuffer. -/
theorem clearZeroesThePixelBytes : Obligations.ClearZeroesThePixelBytes := by
  unfold Obligations.ClearZeroesThePixelBytes
  intro s
  have hlen : 1 ≤ s.cfg.fbLen := Nat.le_add_right 1 _
  refine ⟨_, rfl, rfl, fun i h1 hi => ?_, fun hz => ?_, fun hk => ?_, fun i hi => ?_⟩
  · exact byte_clearedFb_inside (by omega) (.inl h1) _ _
  · exact byte_clearedFb_inside hlen (.inr hz) _ _
  · exact byte_eq_of_read (read_clearedFb_zero (by simp [hk]) s.fb) _
  · exact byte_eq_of_read (read_clearedFb_outside hi s.fb) _

/-- Settles O21: in bounds PSET is one OR-write, out of bounds none. -/
theorem psetSetsOneBit : Obligations.PsetSetsOneBit := by
  unfold Obligations.PsetSetsOneBit
  intro s x y hs
  rw [exec_pset hs]
  refine ⟨fun hb => ⟨_, rfl, rfl, fun b hb8 => ?_, fun i hi => ?_⟩, fun hb => ?_⟩
  · exact (congrArg (BitVec.getLsbD · b) (byte_setPixelFb_same hb _ _)).trans (getLsbD_setBit _ _ _ hb8)
  · exact byte_setPixelFb_other hb _ _ hi.symm
  · rw [setPixelFb_outside hb]; rfl

/-- Settles O22: PSET ORs its own point in, and an in-bounds pixel lies in a byte that CLEAR zeroes. -/
theorem psetLightsAndClearDarkens : Obligations.PsetLightsAndClearDarkens := by
  unfold Obligations.PsetLightsAndClearDarkens
  intro s t x y hs hb
  refine ⟨fun h => ?_, fun h => ?_⟩
  · obtain rfl := Host.Outcome.next.inj ((exec_pset hs x y).symm.trans h)
    exact (pixel_pixelWrites s [⟨x, y⟩] hb).2 (.inr (List.mem_singleton_self _))
  · cases h
    obtain ⟨hpos, hlt⟩ := Config.byteIndex_range (Config.geometry_of_wf hs) hb
    rw [pixel_withFb, byte_clearedFb_inside hlt (.inl hpos)]
    exact BitVec.getLsbD_zero

/-- Settles O23: PSET is SetPixel, and SetPixel commutes and repeats idly on a canonical framebuffer. -/
theorem psetsCommuteAndAreIdempotent : Obligations.PsetsCommuteAndAreIdempotent := by
  unfold Obligations.PsetsCommuteAndAreIdempotent
  intro s x y u v hs hm
  refine ⟨_, _, _, exec_pset hs x y, exec_pset hs u v, exec_pset_withFb hs _ u v, ?_, ?_⟩
  · rw [exec_pset_withFb hs, setPixelFb_comm s.cfg s.resetEpoch hm]
  · rw [exec_pset_withFb hs, setPixelFb_twice s.cfg s.resetEpoch hm]

/-- Settles O49: every effect keeps the indices past the end, and the invariant's cursor and geometry keep every write of
SetPixel and of TEXT inside. -/
theorem noCommandWritesPastTheFramebuffer : Obligations.NoCommandWritesPastTheFramebuffer := by
  unfold Obligations.NoCommandWritesPastTheFramebuffer
  refine ⟨fun i s t a h ha => ((exec_eq_next i s t).1 h).read_past_end ha, fun s hs => ⟨fun ps => ?_, fun str => ?_⟩⟩
  · exact pixelWrites_index (Config.geometry_of_wf hs.config) ps
  · obtain ⟨-, hrange⟩ := textRun_range hs.config str s.cursor hs.cursorInRange
    exact hrange

end

section
/-! PROOFS (lines and edges). SetPixel on lists of points, the symmetry of the canonical order, how far each round of
DrawLine has come, and the edges of POLYGON and POLYLINE (R120 to R124, R128, R129). -/

namespace Sys2Proof
namespace Machine

/-! ## SetPixel on lists of points -/

/-- Two runs of SetPixel are one (R64). -/
theorem drawPixels_append {ps : List Point} {s t : State} (h : drawPixels ps s = .next t) (qs : List Point) :
    drawPixels (ps ++ qs) s = drawPixels qs t := by
  have hcfg : t.cfg = s.cfg := by
    obtain ⟨-, rfl⟩ := (commit_eq_next _ _ _).1 h
    rfl
  rw [drawPixels, pixelWrites, List.filterMap_append, drawPixels, hcfg]
  exact commit_append _ _ _ _ h

/-! ## The rounds of DrawLine -/

/-- The canonical order does not depend on which endpoint is given first (R121). -/
theorem canon_comm (a b : Point) : canon a b = canon b a := by
  obtain ⟨x, y⟩ := a
  obtain ⟨u, v⟩ := b
  simp only [canon]
  by_cases hba : u < x ∨ u = x ∧ v < y
  · rw [if_pos hba, if_neg (by omega)]
  · rw [if_neg hba]
    by_cases hab : x < u ∨ x = u ∧ y < v
    · rw [if_pos hab]
    · rw [if_neg hab, show x = u by omega, show y = v by omega]

/-- The point set does not depend on the direction (R124 (4)). -/
theorem linePoints_comm (c : Config) (x1 y1 x2 y2 : Int) : linePoints c x1 y1 x2 y2 = linePoints c x2 y2 x1 y1 := by
  rw [linePoints, linePoints, canon_comm]

/-- The accumulator takes `dy` for a step in `x` and `dx` for a step in `y` (R122). -/
theorem lineStep_err (p : LineParams) (t : LineState) : (lineStep p t).err =
    t.err + (if 2 * t.err ≥ p.dy then p.dy else 0) + (if 2 * t.err ≤ p.dx then p.dx else 0) := by
  by_cases hx : 2 * t.err ≥ p.dy <;> by_cases hy : 2 * t.err ≤ p.dx <;> simp [lineStep, hx, hy]

/-- The pixel of a round. -/
def LineState.point (t : LineState) : Point := ⟨t.x, t.y⟩

/-- The loop's test for its end. -/
abbrev LineParams.AtEnd (p : LineParams) (t : LineState) : Prop := t.x = p.xe ∧ t.y = p.ye

/-- The loop's points, when the first round at the end is round `n`. -/
theorem lineLoop_eq_map {p : LineParams} {n fuel : Nat} {t : LineState} (hfuel : n < fuel)
    (hgo : ∀ k < n, ¬p.AtEnd ((lineStep p)^[k] t)) (hend : p.AtEnd ((lineStep p)^[n] t)) :
    lineLoop p fuel t = (List.range (n + 1)).map fun k => ((lineStep p)^[k] t).point := by
  induction n generalizing fuel t with
  | zero =>
    obtain ⟨fuel, rfl⟩ := Nat.exists_eq_add_of_lt hfuel
    rw [Nat.zero_add, lineLoop, if_pos (show p.AtEnd t from hend)]
    rfl
  | succ n ih =>
    obtain ⟨fuel, rfl⟩ : ∃ f, fuel = f + 1 := ⟨fuel - 1, by omega⟩
    rw [lineLoop, if_neg (show ¬p.AtEnd t from hgo 0 n.succ_pos), List.range_succ_eq_map, List.map_cons, List.map_map,
      ih (t := lineStep p t) (by omega) (fun k hk => hgo (k + 1) (by omega)) hend]
    rfl

/-- Where the loop stands when it has made `i` steps in `x` and `j` in `y` from `a`. -/
def LineParams.Progress (p : LineParams) (a : Point) (t : LineState) (i j : Int) : Prop :=
  t.x = a.x + p.sx * i ∧ t.y = a.y + p.sy * j

/-- The loop of a segment at least as wide as it is high, before round `k`: it has made `k` steps in `x`, and its
accumulator is bounded on both sides (R122). -/
def LineParams.WideRound (p : LineParams) (a : Point) (k : Nat) (t : LineState) : Prop :=
  ∃ j : Int, 0 ≤ j ∧ j ≤ k ∧ p.Progress a t k j ∧ t.err = (j + 1) * p.dx + (k + 1) * p.dy ∧
    p.dy ≤ 2 * t.err ∧ 2 * t.err ≤ 3 * p.dx + 2 * p.dy

section
variable {p : LineParams} (hdy : p.dy ≤ 0) (hwide : -p.dy ≤ p.dx)
include hdy hwide

theorem LineParams.WideRound.step {a : Point} {k : Nat} {t : LineState} (h : p.WideRound a k t) :
    p.WideRound a (k + 1) (lineStep p t) := by
  obtain ⟨j, h0, hjk, ⟨hx, hy⟩, herr, hlo, hhi⟩ := h
  have hx' : (lineStep p t).x = t.x + p.sx := if_pos hlo
  have herr' := lineStep_err p t
  rw [if_pos hlo] at herr'
  by_cases hmove : 2 * t.err ≤ p.dx
  · have hy' : (lineStep p t).y = t.y + p.sy := if_pos hmove
    rw [if_pos hmove] at herr'
    refine ⟨j + 1, by omega, by omega, ⟨?_, ?_⟩, ?_, by omega, by omega⟩
    · rw [hx', hx]; push_cast; ring
    · rw [hy', hy]; ring
    · rw [herr', herr]; push_cast; ring
  · have hy' : (lineStep p t).y = t.y := if_neg hmove
    rw [if_neg hmove] at herr'
    refine ⟨j, h0, by omega, ⟨?_, hy'.trans hy⟩, ?_, by omega, by omega⟩
    · rw [hx', hx]; push_cast; ring
    · rw [herr', herr]; push_cast; ring

theorem wideRound_iterate (a : Point) (k : Nat) :
    p.WideRound a k ((lineStep p)^[k] ⟨a.x, a.y, p.dx + p.dy⟩) := by
  induction k with
  | zero =>
    rw [Function.iterate_zero, id]
    exact ⟨0, le_rfl, le_rfl, ⟨by simp, by simp⟩, by simp, by dsimp only; omega, by dsimp only; omega⟩
  | succ k ih => rw [Function.iterate_succ_apply']; exact ih.step hdy hwide

end

/-- The bounds on the accumulator keep the height in range, and make it the whole height after `dx` rounds. -/
theorem LineParams.WideRound.progress {p : LineParams} (hdy : p.dy ≤ 0) {a : Point} {k : Nat} {t : LineState}
    (h : p.WideRound a k t) (hk : k ≤ p.dx) :
    ∃ j : Int, 0 ≤ j ∧ j ≤ k ∧ j ≤ -p.dy ∧ (k = p.dx → j = -p.dy) ∧ p.Progress a t k j := by
  obtain ⟨j, h0, hjk, hprog, herr, hlo, hhi⟩ := h
  have hle : j ≤ -p.dy := by
    by_contra hj
    have h1 : (-p.dy + 1) * p.dx ≤ j * p.dx := mul_le_mul_of_nonneg_right (by omega) (by omega)
    have h2 : (k : Int) * -p.dy ≤ p.dx * -p.dy := mul_le_mul_of_nonneg_right hk (by omega)
    nlinarith
  refine ⟨j, h0, hjk, hle, fun hlast => ?_, hprog⟩
  by_contra hj
  have h1 : (j + 1) * p.dx ≤ -p.dy * p.dx := mul_le_mul_of_nonneg_right (by omega) (by omega)
  rw [hlast] at herr
  have h2 : t.err ≤ p.dy := by linarith
  omega

/-! ### Exchange of the axes -/

def LineParams.swap (p : LineParams) : LineParams := ⟨p.ye, p.xe, -p.dy, -p.dx, p.sy, p.sx⟩

def LineState.swap (t : LineState) : LineState := ⟨t.y, t.x, -t.err⟩

/-- The recurrence does not tell its axes apart: exchanging them negates the accumulator (R122). -/
theorem lineStep_swap (p : LineParams) (t : LineState) : lineStep p.swap t.swap = (lineStep p t).swap := by
  have hx : 2 * -t.err ≤ -p.dy ↔ p.dy ≤ 2 * t.err := by omega
  have hy : -p.dx ≤ 2 * -t.err ↔ 2 * t.err ≤ p.dx := by omega
  simp only [lineStep, LineParams.swap, LineState.swap, ge_iff_le, hx, hy, LineState.mk.injEq, true_and]
  split <;> split <;> ring

theorem iterate_lineStep_swap (p : LineParams) (t : LineState) (k : Nat) :
    (lineStep p.swap)^[k] t.swap = ((lineStep p)^[k] t).swap := by
  induction k with
  | zero => rfl
  | succ k ih => rw [Function.iterate_succ_apply', ih, lineStep_swap, ← Function.iterate_succ_apply' (lineStep p)]

/-! ### The step of one axis -/

/-- The step of an axis (`sx`, `sy` of R122), taken as often as the ends are apart, leads from one to the other. -/
theorem step_mul_abs (u v : Int) : (if u < v then 1 else -1) * |v - u| = v - u := by
  split
  · rw [abs_of_pos (by omega), one_mul]
  · rw [abs_of_nonpos (by omega)]; ring

theorem abs_step (u v : Int) : |if u < v then (1 : Int) else -1| = 1 := by split <;> rfl

/-- Taken at most that often, it stays between them. -/
theorem add_step_mem_uIcc {u v i : Int} (h0 : 0 ≤ i) (hi : i ≤ |v - u|) :
    u + (if u < v then 1 else -1) * i ∈ Set.uIcc u v := by
  rw [Set.mem_uIcc]
  split
  · rw [abs_of_pos (by omega)] at hi
    omega
  · rw [abs_of_nonpos (by omega)] at hi
    omega

/-! ### The rounds of one segment -/

/-- The loop of the segment from `a` to `b` before round `k` (R122). -/
def segmentRound (a b : Point) (k : Nat) : LineState :=
  (lineStep (lineParams a b))^[k] ⟨a.x, a.y, (lineParams a b).dx + (lineParams a b).dy⟩

theorem segmentRound_succ (a b : Point) (k : Nat) :
    segmentRound a b (k + 1) = lineStep (lineParams a b) (segmentRound a b k) := Function.iterate_succ_apply' ..

/-- The number of steps of a segment (R124 (1)). -/
def segmentLength (a b : Point) : Nat := (max |b.x - a.x| |b.y - a.y|).toNat

theorem coe_segmentLength (a b : Point) : (segmentLength a b : Int) = max |b.x - a.x| |b.y - a.y| :=
  Int.toNat_of_nonneg (le_max_of_le_left (abs_nonneg _))

section
variable (a b : Point) {k : Nat} (hk : k ≤ segmentLength a b)
include hk

/-- Round `k` has made `k` steps along the longer axis, and at most `k` along the other; the last round has made them
all. -/
theorem segmentRound_progress : ∃ i j : Int, 0 ≤ i ∧ i ≤ |b.x - a.x| ∧ 0 ≤ j ∧ j ≤ |b.y - a.y| ∧ max i j = k ∧
    (k = segmentLength a b → i = |b.x - a.x| ∧ j = |b.y - a.y|) ∧
    (lineParams a b).Progress a (segmentRound a b k) i j := by
  have hlen := coe_segmentLength a b
  have hx0 : 0 ≤ |b.x - a.x| := abs_nonneg _
  have hy0 : 0 ≤ |b.y - a.y| := abs_nonneg _
  by_cases hwide : |b.y - a.y| ≤ |b.x - a.x|
  · have hround : (lineParams a b).WideRound a k (segmentRound a b k) :=
      wideRound_iterate (by simp [lineParams]) (by simpa [lineParams] using hwide) a k
    obtain ⟨j, h0, hjk, hle, hlast, hprog⟩ :=
      hround.progress (by simp [lineParams]) (by simp only [lineParams]; omega)
    simp only [lineParams, neg_neg] at hle hlast
    exact ⟨k, j, by omega, by omega, h0, hle, by omega, fun h => ⟨by omega, hlast (by omega)⟩, hprog⟩
  · have hround : (lineParams a b).swap.WideRound ⟨a.y, a.x⟩ k (segmentRound a b k).swap := by
      rw [segmentRound, ← iterate_lineStep_swap, LineState.swap, neg_add_rev]
      exact wideRound_iterate (p := (lineParams a b).swap) (by simp [LineParams.swap, lineParams])
        (by simp only [LineParams.swap, lineParams]; omega) ⟨a.y, a.x⟩ k
    obtain ⟨i, h0, hik, hle, hlast, hprog⟩ := hround.progress (by simp [LineParams.swap, lineParams])
      (by simp only [LineParams.swap, lineParams]; omega)
    simp only [LineParams.swap, lineParams, neg_neg] at hle hlast
    exact ⟨i, k, h0, hle, by omega, by omega, by omega, fun h => ⟨hlast (by omega), by omega⟩, hprog.symm⟩

/-- Round `k` is at distance `k` from the start (R124 (2)). -/
theorem segmentRound_distance : max |(segmentRound a b k).x - a.x| |(segmentRound a b k).y - a.y| = k := by
  obtain ⟨i, j, hi, -, hj, -, hmax, -, hx, hy⟩ := segmentRound_progress a b hk
  rw [hx, hy, add_sub_cancel_left, add_sub_cancel_left, abs_mul, abs_mul, abs_of_nonneg hi, abs_of_nonneg hj,
    lineParams, abs_step, abs_step, one_mul, one_mul, hmax]

/-- Every round stays in the box of the segment's ends. -/
theorem segmentRound_mem_box :
    (segmentRound a b k).x ∈ Set.uIcc a.x b.x ∧ (segmentRound a b k).y ∈ Set.uIcc a.y b.y := by
  obtain ⟨i, j, hi, hix, hj, hjy, -, -, hx, hy⟩ := segmentRound_progress a b hk
  rw [hx, hy]
  exact ⟨add_step_mem_uIcc hi hix, add_step_mem_uIcc hj hjy⟩

end

section
variable (a b : Point)

/-- The last round is at the segment's end. -/
theorem segmentRound_last : (segmentRound a b (segmentLength a b)).point = b := by
  obtain ⟨i, j, -, -, -, -, -, hlast, hx, hy⟩ := segmentRound_progress a b le_rfl
  obtain ⟨rfl, rfl⟩ := hlast rfl
  rw [LineState.point, hx, hy]
  simp only [lineParams, step_mul_abs, add_sub_cancel]

/-- No earlier round is at the segment's end. -/
theorem segmentRound_ne_end {k : Nat} (hk : k < segmentLength a b) :
    ¬(lineParams a b).AtEnd (segmentRound a b k) := by
  rintro ⟨hx, hy⟩
  have hdist := segmentRound_distance a b hk.le
  rw [hx, hy] at hdist
  have hlen := coe_segmentLength a b
  simp only [lineParams] at hdist
  omega

/-- The points of a segment are the pixels of its rounds (R122, R124 (1)). -/
theorem segmentPoints_eq_map :
    segmentPoints a b = (List.range (segmentLength a b + 1)).map fun k => (segmentRound a b k).point := by
  have hlen := coe_segmentLength a b
  have hend := Point.mk.inj (segmentRound_last a b)
  refine lineLoop_eq_map ?_ (fun k hk => segmentRound_ne_end a b hk) hend
  simp only [lineParams]
  have := abs_nonneg (b.x - a.x)
  have := abs_nonneg (b.y - a.y)
  omega

end

/-! ### The clamped endpoints -/

section
variable {c : Config} (x1 y1 x2 y2 : Int)

/-- DrawLine is the segment between the clamped endpoints in canonical order (R120 to R122). -/
theorem linePoints_eq_segmentPoints {p q : Point} (h : canon (c.clampPt x1 y1) (c.clampPt x2 y2) = (p, q)) :
    linePoints c x1 y1 x2 y2 = segmentPoints p q := by
  rw [linePoints, h]

theorem canon_mem (a b : Point) : canon a b = (a, b) ∨ canon a b = (b, a) := by
  unfold canon
  split
  · exact .inr rfl
  · exact .inl rfl

/-- Both canonical endpoints are on the canvas (R120). -/
theorem canon_inBounds (hc : c.GeometryWf) {p q : Point} (h : canon (c.clampPt x1 y1) (c.clampPt x2 y2) = (p, q)) :
    c.InBounds p.x p.y ∧ c.InBounds q.x q.y := by
  have h1 := Config.clampPt_inBounds hc x1 y1
  have h2 := Config.clampPt_inBounds hc x2 y2
  rcases canon_mem (c.clampPt x1 y1) (c.clampPt x2 y2) with he | he <;> cases he.symm.trans h
  · exact ⟨h1, h2⟩
  · exact ⟨h2, h1⟩

end

/-- ClampPt, written out (R14, R120). -/
theorem clampPt_eq {c : Config} (hc : c.GeometryWf) (x y : Int) :
    c.clampPt x y = ⟨max 0 (min x (c.width - 1)), max 0 (min y (c.height - 1))⟩ := by
  rw [Config.clampPt, clamp_eq _ _ _ (by omega), clamp_eq _ _ _ (by omega)]

/-- The canvas is convex in each coordinate. -/
theorem inBounds_of_mem_box {c : Config} {a b p : Point} (ha : c.InBounds a.x a.y) (hb : c.InBounds b.x b.y)
    (hx : p.x ∈ Set.uIcc a.x b.x) (hy : p.y ∈ Set.uIcc a.y b.y) : c.InBounds p.x p.y := by
  rw [Set.mem_uIcc] at hx hy
  refine ⟨?_, ?_, ?_, ?_⟩ <;> omega

/-- A step moves by at most one along each axis (R124 (2)). -/
theorem segmentRound_step_le (a b : Point) (k : Nat) :
    |(segmentRound a b (k + 1)).x - (segmentRound a b k).x| ≤ 1 ∧
      |(segmentRound a b (k + 1)).y - (segmentRound a b k).y| ≤ 1 := by
  rw [segmentRound_succ]
  constructor <;> simp only [lineStep] <;> split
  · rw [add_sub_cancel_left, lineParams, abs_step]
  · simp
  · rw [add_sub_cancel_left, lineParams, abs_step]
  · simp

/-- Two rounds with one pixel are the same round. -/
theorem segmentRound_point_inj {a b : Point} {k l : Nat} (hk : k ≤ segmentLength a b) (hl : l ≤ segmentLength a b)
    (h : (segmentRound a b k).point = (segmentRound a b l).point) : k = l := by
  obtain ⟨hx, hy⟩ := Point.mk.inj h
  have hdist := segmentRound_distance a b hk
  rw [hx, hy, segmentRound_distance a b hl] at hdist
  exact_mod_cast hdist.symm

/-! ### The points of a segment as a path -/

theorem segmentPoints_nodup (a b : Point) : (segmentPoints a b).Nodup := by
  rw [segmentPoints_eq_map]
  refine List.Nodup.map_on (fun k hk l hl => ?_) List.nodup_range
  rw [List.mem_range] at hk hl
  exact segmentRound_point_inj (by omega) (by omega)

theorem head?_segmentPoints (a b : Point) : (segmentPoints a b).head? = some a := by
  rw [segmentPoints_eq_map, List.range_succ_eq_map]
  rfl

theorem getLast?_segmentPoints (a b : Point) : (segmentPoints a b).getLast? = some b := by
  rw [segmentPoints_eq_map, List.range_succ, List.map_append, List.map_singleton, List.getLast?_concat,
    segmentRound_last]

/-- A king's move from a point to another. -/
abbrev KingsMove (a b : Point) : Prop := a ≠ b ∧ |b.x - a.x| ≤ 1 ∧ |b.y - a.y| ≤ 1

theorem segmentPoints_isChain (a b : Point) : (segmentPoints a b).IsChain KingsMove := by
  rw [segmentPoints_eq_map, List.isChain_map]
  refine List.isChain_iff_getElem.2 fun k hk => ?_
  rw [List.length_range] at hk
  rw [List.getElem_range, List.getElem_range]
  refine ⟨fun h => ?_, segmentRound_step_le a b k⟩
  have := segmentRound_point_inj (by omega) (by omega) h
  omega

theorem mem_segmentPoints (a b p : Point) :
    p ∈ segmentPoints a b ↔ ∃ k, k ≤ segmentLength a b ∧ (segmentRound a b k).point = p := by
  rw [segmentPoints_eq_map, List.mem_map]
  simp only [List.mem_range, Nat.lt_succ_iff]

theorem segmentPoints_inBounds {c : Config} {a b : Point} (ha : c.InBounds a.x a.y) (hb : c.InBounds b.x b.y) :
    ∀ p ∈ segmentPoints a b, c.InBounds p.x p.y := by
  intro p hp
  obtain ⟨k, hk, rfl⟩ := (mem_segmentPoints a b p).1 hp
  obtain ⟨hx, hy⟩ := segmentRound_mem_box a b hk
  exact inBounds_of_mem_box ha hb hx hy

/-- The segment from a point to itself (R123). -/
theorem segmentPoints_self (a : Point) : segmentPoints a a = [a] := by
  rw [segmentPoints_eq_map, segmentLength]
  simp [segmentRound, LineState.point]

/-! ## Edges -/

theorem edgePoints_append (c : Config) (es fs : List (Point × Point)) :
    edgePoints c (es ++ fs) = edgePoints c es ++ edgePoints c fs := List.flatMap_append

theorem edgePoints_singleton (c : Config) (a b : Point) :
    edgePoints c [(a, b)] = linePoints c a.x a.y b.x b.y := List.append_nil _

theorem mem_openEdges (vs : List Point) (a b : Point) :
    (a, b) ∈ openEdges vs ↔ ∃ i : Nat, vs[i]? = some a ∧ vs[i + 1]? = some b := by
  simp only [openEdges, List.mem_iff_getElem?, List.getElem?_zip_eq_some, List.getElem?_tail]

/-- The points of the open edges, by the vertices' numbers (R128, R129). -/
theorem mem_edgePoints_openEdges (c : Config) (vs : List Point) (p : Point) :
    p ∈ edgePoints c (openEdges vs) ↔ OnOpenEdge c vs p := by
  simp only [edgePoints, List.mem_flatMap, Prod.exists, mem_openEdges, OnOpenEdge]
  constructor
  · rintro ⟨a, b, ⟨i, ha, hb⟩, hp⟩
    exact ⟨i, a, b, ha, hb, hp⟩
  · rintro ⟨i, a, b, ha, hb, hp⟩
    exact ⟨a, b, ⟨i, ha, hb⟩, hp⟩

/-- The points of the closing edge (R128). -/
theorem mem_edgePoints_closingEdge (c : Config) (vs : List Point) (p : Point) :
    p ∈ edgePoints c (closingEdge vs) ↔ OnClosingEdge c vs p := by
  match vs with
  | [] => simp [closingEdge, edgePoints, OnClosingEdge]
  | [v] => simp [closingEdge, edgePoints, OnClosingEdge]
  | v0 :: v1 :: vs =>
    rw [closingEdge, edgePoints_singleton, OnClosingEdge, List.getLastD_cons,
      List.getLast?_cons_cons, List.getLast?_cons, ← List.getLastD_eq_getLast?]
    simp

/-- Fewer than two vertices have no edge (R128, R129). -/
theorem edges_of_length_le_one {vs : List Point} (h : vs.length ≤ 1) : openEdges vs = [] ∧ closingEdge vs = [] := by
  match vs, h with
  | [], _ => exact ⟨rfl, rfl⟩
  | [v], _ => exact ⟨rfl, rfl⟩

end Machine
end Sys2Proof

open Sys2Proof Sys2Proof.Machine

/-- Settles O26: both directions have the same canonical endpoints. -/
theorem lineIsSymmetricInDirection : Obligations.LineIsSymmetricInDirection := by
  unfold Obligations.LineIsSymmetricInDirection
  intro s x1 y1 x2 y2
  exact congrArg (drawPixels · s) (linePoints_comm s.cfg x1 y1 x2 y2)

/-- Settles O28: the canonical endpoints are one point, and its segment is that point. -/
theorem degenerateLineIsOneClampedPixel : Obligations.DegenerateLineIsOneClampedPixel := by
  unfold Obligations.DegenerateLineIsOneClampedPixel
  intro s x y hs
  have hcanon : canon (s.cfg.clampPt x y) (s.cfg.clampPt x y) = (s.cfg.clampPt x y, s.cfg.clampPt x y) :=
    (canon_mem _ _).elim id id
  refine congrArg (drawPixels · s) ?_
  rw [linePoints_eq_segmentPoints x y x y hcanon, segmentPoints_self, clampPt_eq (Config.geometry_of_wf hs)]

/-- Settles O27: the rounds of a segment are told apart by their distance from its start. -/
theorem linePointsFormOneShortPath : Obligations.LinePointsFormOneShortPath := by
  unfold Obligations.LinePointsFormOneShortPath
  intro c x1 y1 x2 y2 hc p q hcanon
  obtain ⟨hp, hq⟩ := canon_inBounds x1 y1 x2 y2 (Config.geometry_of_wf hc) hcanon
  rw [linePoints_eq_segmentPoints x1 y1 x2 y2 hcanon]
  refine ⟨?_, segmentPoints_nodup p q, head?_segmentPoints p q, getLast?_segmentPoints p q, segmentPoints_isChain p q,
    segmentPoints_inBounds hp hq⟩
  rw [segmentPoints_eq_map, List.length_map, List.length_range, segmentLength]

/-- Settles O25: the rounds are the states of the loop, and the first at the end is the last one. -/
theorem lineFollowsTheErrorAccumulator : Obligations.LineFollowsTheErrorAccumulator := by
  unfold Obligations.LineFollowsTheErrorAccumulator
  intro s x1 y1 x2 y2 hs
  have hgeo := Config.geometry_of_wf hs
  obtain ⟨⟨p, q⟩, hcanon⟩ : ∃ ends, canon (s.cfg.clampPt x1 y1) (s.cfg.clampPt x2 y2) = ends := ⟨_, rfl⟩
  obtain ⟨t, hexec, hframe, hpixel, -⟩ := drawPixels_ors_points hs (linePoints s.cfg x1 y1 x2 y2)
  have hlast := Point.mk.inj (segmentRound_last p q)
  refine ⟨p, q, segmentLength p q, fun k => (segmentRound p q k).x, fun k => (segmentRound p q k).y,
    fun k => (segmentRound p q k).err, t, ?_, rfl, rfl, rfl, fun k hk => ⟨segmentRound_ne_end p q hk, ?_⟩,
    hlast.1, hlast.2, hexec, hframe, fun u v hb => ?_⟩
  · rw [canon, clampPt_eq hgeo, clampPt_eq hgeo] at hcanon
    constructor <;> intro horder
    · cases (if_pos horder).symm.trans hcanon
      exact ⟨rfl, rfl⟩
    · cases (if_neg horder).symm.trans hcanon
      exact ⟨rfl, rfl⟩
  · simp only [segmentRound_succ]
    refine ⟨fun h => if_pos h, fun h => if_neg h, fun h => if_pos h, fun h => if_neg h, lineStep_err _ _⟩
  · rw [hpixel u v hb, linePoints_eq_segmentPoints x1 y1 x2 y2 hcanon, mem_segmentPoints]
    simp only [LineState.point, Point.mk.injEq]

/-- Settles O36: POLYLINE is SetPixel on the points of the open edges. -/
theorem polylineOrsEveryEdgeButTheClosingOne : Obligations.PolylineOrsEveryEdgeButTheClosingOne := by
  unfold Obligations.PolylineOrsEveryEdgeButTheClosingOne
  intro s vs hs
  refine ⟨fun hlen => ?_, ?_⟩
  · change execPolyline vs s = _
    rw [execPolyline, (edges_of_length_le_one hlen).1]
    rfl
  · simp only [← mem_edgePoints_openEdges]
    exact drawPixels_ors_points hs _

/-- Settles O35: POLYGON is SetPixel on the points of the open edges and then on those of the closing edge. -/
theorem polygonOrsEveryEdge : Obligations.PolygonOrsEveryEdge := by
  unfold Obligations.PolygonOrsEveryEdge
  intro s vs hs
  refine ⟨fun hlen => ?_, ?_⟩
  · obtain ⟨hopen, hclosing⟩ := edges_of_length_le_one hlen
    change execPolygon vs s = _
    rw [execPolygon, hopen, hclosing]
    rfl
  · simp only [← mem_edgePoints_openEdges, ← mem_edgePoints_closingEdge, ← List.mem_append, ← edgePoints_append]
    exact drawPixels_ors_points hs _

/-- Settles O37: POLYGON's one run of SetPixel is a run on the open edges and then one on the closing edge. -/
theorem polygonIsPolylineAndTheClosingLine : Obligations.PolygonIsPolylineAndTheClosingLine := by
  unfold Obligations.PolygonIsPolylineAndTheClosingLine
  refine ⟨fun s t v0 v1 vs h => ?_, fun s a b => congrArg (drawPixels · s) (edgePoints_singleton s.cfg a b)⟩
  have hcfg : t.cfg = s.cfg := ((exec_eq_next _ _ _).1 h).cfg_eq
  change drawPixels (edgePoints s.cfg (openEdges (v0 :: v1 :: vs) ++ closingEdge (v0 :: v1 :: vs))) s = _
  rw [edgePoints_append, drawPixels_append h, closingEdge, edgePoints_singleton, ← hcfg]
  rfl

end

section
/-! PROOFS (circles). DrawCircle walks the arc of a quadrant: which lattice points the arc has, said without the
recurrence, that each round is one of them and that the loop misses none. The symmetries and the bounding square are then
read off the arc (R125 to R127, R131). -/

namespace Sys2Proof
namespace Machine

/-! ## One SetPixel repeated -/

/-- A write supersedes an earlier write to its index, in any memory. -/
theorem Memory.write_write (m : Memory) (a : Nat) (u v : Byte) : (m.write a u).write a v = m.write a v := by
  induction m with
  | nil => simp [Memory.write]
  | cons d m ih =>
    obtain ⟨k, w⟩ := d
    by_cases hlt : a < k
    · simp [Memory.write, hlt]
    · by_cases heq : a = k
      · simp [Memory.write, heq]
      · simp [Memory.write, hlt, heq, ih]

/-- An OR-write done again changes nothing, in any memory, canonical or not. -/
theorem apply_orBit_again (epoch : Nat) (m : Memory) (i b : Nat) :
    FbWrite.apply epoch (FbWrite.apply epoch m (.orBit i b)) (.orBit i b) = FbWrite.apply epoch m (.orBit i b) := by
  simp only [FbWrite.apply, Memory.write_write, Memory.byte_write, if_true, BitVec.or_assoc, BitVec.or_self]

/-- SetPixel called again on the same point changes nothing, in any state. -/
theorem drawPixels_repeat (p : Point) (ps : List Point) (s : State) :
    drawPixels (p :: p :: ps) s = drawPixels (p :: ps) s := by
  simp only [drawPixels, pixelWrites_cons]
  split
  · simp only [commit, List.all_cons, applyWrites_cons, apply_orBit_again, Bool.and_self_left]
    rfl
  · rfl

/-! ## The rounds of DrawCircle -/

/-- The loop of DrawCircle before round `k`, for a radius that is not negative (R125). -/
def circleState (r : Int) (k : Nat) : CircleState := circleStep^[k] (circleStart r)

theorem circleState_succ (r : Int) (k : Nat) : circleState r (k + 1) = circleStep (circleState r k) :=
  Function.iterate_succ_apply' ..

/-- The three moves of a round: along `x`, along `y`, or along both (R125). -/
theorem circleStep_cases (t : CircleState) :
    (t.y < t.err ∧ circleStep t = ⟨t.x + 1, t.y, t.err + 2 * (t.x + 1) + 1⟩) ∨
    (t.err ≤ t.x ∧ t.err ≤ -t.y - 2 ∧ t.err ≤ t.y ∧ circleStep t = ⟨t.x, t.y + 1, t.err + 2 * (t.y + 1) + 1⟩) ∨
    (t.err ≤ t.y ∧ (t.x < t.err ∨ -t.y - 2 < t.err) ∧
      circleStep t = ⟨t.x + 1, t.y + 1, t.err + 2 * (t.y + 1) + 1 + 2 * (t.x + 1) + 1⟩) := by
  by_cases hy : t.err ≤ t.y
  · by_cases hx : t.err > t.x ∨ t.err + 2 * (t.y + 1) + 1 > t.y + 1
    · refine .inr (.inr ⟨hy, by omega, ?_⟩)
      simp only [circleStep, if_pos hy, if_pos hx]
    · refine .inr (.inl ⟨by omega, by omega, hy, ?_⟩)
      simp only [circleStep, if_pos hy, if_neg hx]
  · refine .inl ⟨by omega, ?_⟩
    simp only [circleStep, if_neg hy, if_pos (show t.err > t.x ∨ t.err > t.y from .inr (by omega))]

/-- The two tests of a round, with the accumulator between them (R125). -/
theorem circleStep_tests (t : CircleState) : ∃ e1 : Int,
    (t.err ≤ t.y → (circleStep t).y = t.y + 1 ∧ e1 = t.err + 2 * (circleStep t).y + 1) ∧
    (¬t.err ≤ t.y → (circleStep t).y = t.y ∧ e1 = t.err) ∧
    (t.err > t.x ∨ e1 > (circleStep t).y →
      (circleStep t).x = t.x + 1 ∧ (circleStep t).err = e1 + 2 * (circleStep t).x + 1) ∧
    (¬(t.err > t.x ∨ e1 > (circleStep t).y) → (circleStep t).x = t.x ∧ (circleStep t).err = e1) := by
  obtain ⟨hy, h⟩ | ⟨hx, hx', hy, h⟩ | ⟨hy, hx, h⟩ := circleStep_cases t <;> rw [h] <;> dsimp only
  · exact ⟨t.err, by omega⟩
  · exact ⟨t.err + 2 * (t.y + 1) + 1, by omega⟩
  · exact ⟨t.err + 2 * (t.y + 1) + 1, by omega⟩

/-- Each round moves (R127 (1)). -/
theorem circleStep_advances (t : CircleState) : t.x + t.y + 1 ≤ (circleStep t).x + (circleStep t).y := by
  obtain ⟨-, h⟩ | ⟨-, -, -, h⟩ | ⟨-, -, h⟩ := circleStep_cases t <;> rw [h] <;> dsimp only <;> omega

theorem circleState_advances (r : Int) (k : Nat) : -r + k ≤ (circleState r k).x + (circleState r k).y := by
  induction k with
  | zero => simp [circleState, circleStart]
  | succ k ih =>
    have := circleStep_advances (circleState r k)
    rw [circleState_succ]
    omega

/-! ## The arc of a quadrant -/

/-- How far a point of the quadrant is outside the circle of radius `r`, in squares. -/
def excess (r u v : Int) : Int := u * u + v * v - r * r

theorem excess_comm (r u v : Int) : excess r u v = excess r v u := by unfold excess; ring

theorem excess_sub_one_left (r u v : Int) : excess r (u - 1) v = excess r u v - 2 * u + 1 := by unfold excess; ring

theorem excess_add_one_right (r u v : Int) : excess r u (v + 1) = excess r u v + 2 * v + 1 := by unfold excess; ring

/-- The excess grows along an axis, and from one lattice point to the next faster than the coordinate. -/
theorem excess_mono {r a b v : Int} (h0 : 0 ≤ a) (hab : a ≤ b) :
    excess r a v ≤ excess r b v ∧ excess r a v - a ≤ excess r b v - b := by
  unfold excess
  constructor
  · nlinarith
  · rcases hab.eq_or_lt with rfl | hlt
    · rfl
    · nlinarith

/-- The lattice points of the quadrant that are nearest to the circle along their longer coordinate, without the corner
point on the diagonal where its two neighbours below and to the left are such points too (R125; radius 4 has one at
(3, 3)). -/
def OnArc (r u v : Int) : Prop :=
  0 ≤ u ∧ 0 ≤ v ∧ -max u v ≤ excess r u v ∧ excess r u v < max u v ∧ ¬(u = v ∧ excess r u v = u - 1)

theorem OnArc.comm {r u v : Int} (h : OnArc r u v) : OnArc r v u := by
  obtain ⟨hu, hv, hlo, hhi, hcorner⟩ := h
  rw [excess_comm] at hlo hhi hcorner
  exact ⟨hv, hu, by omega, by omega, by omega⟩

/-- The start of the arc (R125). -/
theorem onArc_start {r : Int} (hr : 1 ≤ r) : OnArc r r 0 := by
  have : excess r r 0 = 0 := by unfold excess; ring
  exact ⟨by omega, le_rfl, by omega, by omega, by omega⟩

/-- The arc lies in the square of side `r`. -/
theorem OnArc.le {r u v : Int} (hr : 0 ≤ r) (h : OnArc r u v) : u ≤ r ∧ v ≤ r := by
  obtain ⟨hu, hv, -, hhi, -⟩ := h
  unfold excess at hhi
  by_contra hout
  have hm : r + 1 ≤ max u v := by omega
  have hsq : max u v * max u v ≤ u * u + v * v := by
    rcases max_choice u v with h | h <;> rw [h] <;> nlinarith
  nlinarith

/-- The one point of the arc on an axis (R127 (1)). -/
theorem OnArc.eq_of_zero {r v : Int} (hr : 1 ≤ r) (h : OnArc r 0 v) : v = r := by
  have hle := (h.le (by omega)).2
  obtain ⟨-, hv, hlo, hhi, -⟩ := h
  unfold excess at hlo hhi
  rw [max_eq_right hv] at hlo
  by_contra hne
  nlinarith [show v + 1 ≤ r by omega]

/-- No point of the arc lies in a row left of one that is too far inside. -/
theorem not_onArc_left {r a b v : Int} (hin : excess r b v < -max b v) (hab : a ≤ b) : ¬OnArc r a v := by
  rintro ⟨ha, -, hlo, -, -⟩
  have := (excess_mono (r := r) (v := v) ha hab).1
  omega

/-- No point of the arc lies in a column above one that is too far outside. -/
theorem not_onArc_above {r u a b : Int} (ha : 0 ≤ a) (hout : max u a ≤ excess r u a) (hab : a ≤ b) : ¬OnArc r u b := by
  rintro ⟨-, -, -, hhi, -⟩
  obtain ⟨hmono, hslope⟩ := excess_mono (r := r) (v := u) ha hab
  rw [excess_comm r a, excess_comm r b] at hmono hslope
  omega

/-! ## The walk along the arc -/

/-- What the loop keeps: the round's point is on the arc, and `err` is the excess of its diagonal neighbour. -/
def ArcRound (r : Int) (t : CircleState) : Prop :=
  OnArc r (-t.x) t.y ∧ t.err = excess r (-t.x - 1) (t.y + 1)

/-- A point the walk has not passed. -/
def Ahead (t : CircleState) (u v : Int) : Prop := u ≤ -t.x ∧ t.y ≤ v

/-- The diagonal neighbour's excess, from the point's own. -/
theorem excess_diagonal (r u v : Int) : excess r (u - 1) (v + 1) = excess r u v - 2 * u + 2 * v + 2 := by
  rw [excess_add_one_right, excess_sub_one_left]; ring

section
variable {r u v : Int} (hu : 1 ≤ u) (h : OnArc r u v)
include hu h

/-- The move along `x`: the next point is on the arc, and the column left behind has none above. -/
theorem onArc_move_x (hy : v < excess r (u - 1) (v + 1)) :
    OnArc r (u - 1) v ∧ ∀ a b, OnArc r a b → a = u → b ≤ v := by
  obtain ⟨-, hv, hlo, hhi, hcorner⟩ := h
  rw [excess_diagonal] at hy
  have hup := excess_add_one_right r u v
  refine ⟨by unfold OnArc; rw [excess_sub_one_left]; omega, ?_⟩
  rintro a b harc rfl
  by_contra hb
  exact not_onArc_above (a := v + 1) (by omega) (by omega) (by omega) harc

/-- The move along `y`: the next point is on the arc, and the row left behind has none to the left. -/
theorem onArc_move_y (hx : excess r (u - 1) (v + 1) ≤ -u) (hy : excess r (u - 1) (v + 1) ≤ -v - 2) :
    OnArc r u (v + 1) ∧ ∀ a b, OnArc r a b → b = v → u ≤ a := by
  obtain ⟨-, hv, hlo, hhi, hcorner⟩ := h
  rw [excess_diagonal] at hx hy
  have hleft := excess_sub_one_left r u v
  refine ⟨by unfold OnArc; rw [excess_add_one_right]; omega, ?_⟩
  rintro a b harc rfl
  by_contra ha
  exact not_onArc_left (b := u - 1) (by omega) (by omega) harc

/-- The move along both axes: the next point is on the arc, and neither the row nor the column left behind has another
ahead. -/
theorem onArc_move_both (hy : excess r (u - 1) (v + 1) ≤ v)
    (hx : -u < excess r (u - 1) (v + 1) ∨ -v - 2 < excess r (u - 1) (v + 1)) :
    OnArc r (u - 1) (v + 1) ∧ (∀ a b, OnArc r a b → a = u → b ≤ v) ∧ ∀ a b, OnArc r a b → b = v → u ≤ a := by
  obtain ⟨-, hv, hlo, hhi, hcorner⟩ := h
  have hdiag := excess_diagonal r u v
  have hleft := excess_sub_one_left r u v
  have hup := excess_add_one_right r u v
  have hup2 := excess_add_one_right r u (v + 1)
  refine ⟨by unfold OnArc; omega, ?_, ?_⟩
  · rintro a b harc rfl
    by_contra hb
    rcases (show b = v + 1 ∨ v + 1 + 1 ≤ b by omega) with rfl | hb
    · obtain ⟨-, -, -, hhi', hcorner'⟩ := harc
      omega
    · exact not_onArc_above (a := v + 1 + 1) (by omega) (by omega) hb harc
  · rintro a b harc rfl
    by_contra ha
    exact not_onArc_left (b := u - 1) (by omega) (by omega) harc

end

/-- A round walks from a point of the arc to the next, and passes no other. -/
theorem ArcRound.step {r : Int} {t : CircleState} (h : ArcRound r t) (hx : t.x < 0) :
    ArcRound r (circleStep t) ∧
      ∀ u v, OnArc r u v → Ahead t u v → (u = -t.x ∧ v = t.y) ∨ Ahead (circleStep t) u v := by
  obtain ⟨harc, herr⟩ := h
  unfold Ahead ArcRound
  obtain ⟨hmove, heq⟩ | ⟨hmx, hmy, -, heq⟩ | ⟨hmy, hmx, heq⟩ := circleStep_cases t <;> simp only [heq, neg_add]
  · obtain ⟨hnext, hcolumn⟩ := onArc_move_x (by omega) harc (by omega)
    refine ⟨⟨hnext, ?_⟩, fun u v hp hahead => ?_⟩
    · rw [herr]; unfold excess; ring
    · have := hcolumn u v hp
      omega
  · obtain ⟨hnext, hrow⟩ := onArc_move_y (by omega) harc (by omega) (by omega)
    refine ⟨⟨hnext, ?_⟩, fun u v hp hahead => ?_⟩
    · rw [herr]; unfold excess; ring
    · have := hrow u v hp
      omega
  · obtain ⟨hnext, hcolumn, hrow⟩ := onArc_move_both (by omega) harc (by omega) (by omega)
    refine ⟨⟨hnext, ?_⟩, fun u v hp hahead => ?_⟩
    · rw [herr]; unfold excess; ring
    · have := hcolumn u v hp
      have := hrow u v hp
      omega

theorem arcRound_start {r : Int} (hr : 1 ≤ r) : ArcRound r (circleStart r) := by
  refine ⟨by simpa [circleStart] using onArc_start hr, ?_⟩
  simp only [circleStart, excess]
  ring

section
variable {r : Int} (hr : 1 ≤ r) {n : Nat} (hgo : ∀ k < n, (circleState r k).x < 0)
include hr hgo

theorem arcRound_circleState : ArcRound r (circleState r n) := by
  induction n with
  | zero => exact arcRound_start hr
  | succ n ih =>
    rw [circleState_succ]
    exact ((ih fun k hk => hgo k (by omega)).step (hgo n (by omega))).1

/-- Every point of the arc is the point of a round or still ahead. -/
theorem visited_or_ahead {u v : Int} (h : OnArc r u v) :
    (∃ k < n, u = -(circleState r k).x ∧ v = (circleState r k).y) ∨ Ahead (circleState r n) u v := by
  induction n with
  | zero =>
    refine .inr ⟨?_, h.2.1⟩
    simpa [circleState, circleStart] using (h.le (by omega)).1
  | succ n ih =>
    have hgo' : ∀ k < n, (circleState r k).x < 0 := fun k hk => hgo k (by omega)
    rcases ih hgo' with ⟨k, hk, hvisit⟩ | hahead
    · exact .inl ⟨k, by omega, hvisit⟩
    · rw [circleState_succ]
      rcases ((arcRound_circleState hr hgo').step (hgo n (by omega))).2 u v h hahead with hvisit | hahead
      · exact .inl ⟨n, by omega, hvisit⟩
      · exact .inr hahead

end

/-! ## The end of the loop -/

theorem circleState_zero_neg {r : Int} (hr : 1 ≤ r) : (circleState r 0).x < 0 := by
  change -r < 0
  omega

/-- As long as `x` is negative, at most `2r` rounds have been made (R127 (1)). -/
theorem rounds_le {r : Int} (hr : 1 ≤ r) {n : Nat} (hgo : ∀ k < n, (circleState r k).x < 0) : (n : Int) ≤ 2 * r := by
  obtain ⟨harc, -⟩ := arcRound_circleState hr hgo
  have hy := (harc.le (by omega)).2
  have hx := harc.1
  have hadvance := circleState_advances r n
  omega

/-- The loop makes `n` rounds: round `n - 1` is the first to leave `x` at 0 or above (R125, `until x >= 0`). -/
def RoundCount (r : Int) (n : Nat) : Prop := 1 ≤ n ∧ ∀ k < n, (0 ≤ (circleState r (k + 1)).x ↔ k + 1 = n)

/-- The loop ends within `2r + 1` rounds (R127 (1)). -/
theorem exists_roundCount {r : Int} (hr : 0 ≤ r) : ∃ n : Nat, RoundCount r n ∧ (n : Int) ≤ 2 * r + 1 := by
  rcases hr.eq_or_lt with rfl | hr
  · exact ⟨1, ⟨le_rfl, by decide⟩, by decide⟩
  have hend : ∃ k : Nat, 0 ≤ (circleState r (k + 1)).x := by
    by_contra hnone
    have hgo : ∀ k < (2 * r).toNat + 1, (circleState r k).x < 0
      | 0, _ => circleState_zero_neg hr
      | k + 1, _ => not_le.1 fun hx => hnone ⟨k, hx⟩
    have := rounds_le hr hgo
    omega
  have hgo : ∀ k < Nat.find hend + 1, (circleState r k).x < 0
    | 0, _ => circleState_zero_neg hr
    | k + 1, hk => not_le.1 (Nat.find_min hend (by omega))
  have hle := rounds_le hr hgo
  refine ⟨Nat.find hend + 1, ⟨by omega, fun k hk => ⟨fun hx => ?_, fun hlast => ?_⟩⟩, by omega⟩
  · have := Nat.find_min' hend hx
    omega
  · rw [Nat.succ.inj hlast]
    exact Nat.find_spec hend

section
variable {r : Int} {n : Nat} (hn : RoundCount r n)
include hn

/-- Before every round of a positive radius `x` is negative (R125). -/
theorem RoundCount.neg (hr : 1 ≤ r) : ∀ k < n, (circleState r k).x < 0
  | 0, _ => circleState_zero_neg hr
  | k + 1, hk => not_le.1 fun hx => by have := (hn.2 k (by omega)).1 hx; omega

theorem RoundCount.last : 0 ≤ (circleState r n).x := by
  obtain ⟨h1, hround⟩ := hn
  have := (hround (n - 1) (by omega)).2 (by omega)
  rwa [Nat.sub_add_cancel h1] at this

end

/-- The loop's points, when round `n - 1` is the first to leave `x` at 0 or above. -/
theorem circleLoop_eq_flatMap {cx cy : Int} {n fuel : Nat} {t : CircleState} (h1 : 1 ≤ n) (hfuel : n ≤ fuel)
    (hround : ∀ k < n, (0 ≤ (circleStep^[k + 1] t).x ↔ k + 1 = n)) :
    circleLoop cx cy fuel t = (List.range n).flatMap fun k => circleRound cx cy (circleStep^[k] t) := by
  induction n, h1 using Nat.le_induction generalizing fuel t with
  | base =>
    obtain ⟨fuel, rfl⟩ := Nat.exists_eq_add_of_le' hfuel
    rw [circleLoop, if_pos (show (circleStep t).x ≥ 0 from (hround 0 (by omega)).2 rfl)]
    rfl
  | succ n h1 ih =>
    obtain ⟨fuel, rfl⟩ : ∃ f, fuel = f + 1 := ⟨fuel - 1, by omega⟩
    have hgo : ¬(circleStep t).x ≥ 0 := fun hx => by have := (hround 0 (by omega)).1 hx; omega
    have hround' : ∀ k < n, (0 ≤ (circleStep^[k + 1] (circleStep t)).x ↔ k + 1 = n) := fun k hk => by
      rw [← Function.iterate_succ_apply, hround (k + 1) (by omega)]
      omega
    rw [circleLoop, if_neg hgo, List.range_succ_eq_map, List.flatMap_cons, List.flatMap_map, ih (by omega) hround']
    rfl

/-! ## The points of DrawCircle -/

/-- A negative radius is taken as 0 (R125). -/
theorem circlePoints_radius (cx cy r : Int) : circlePoints cx cy r = circlePoints cx cy (if r < 0 then 0 else r) := by
  unfold circlePoints
  split <;> simp_all

theorem mem_circleRound {cx cy u v : Int} {t : CircleState} : (⟨u, v⟩ : Point) ∈ circleRound cx cy t ↔
    (u = cx - t.x ∧ v = cy + t.y) ∨ (u = cx - t.y ∧ v = cy - t.x) ∨
      (u = cx + t.x ∧ v = cy - t.y) ∨ (u = cx + t.y ∧ v = cy + t.x) := by
  simp only [circleRound, List.mem_cons, List.not_mem_nil, or_false, Point.mk.injEq]

/-- The points of a circle are those of its rounds (R125). -/
theorem mem_circlePoints_of_roundCount {cx cy r : Int} (hr : 0 ≤ r) {n : Nat} (hn : RoundCount r n)
    (hle : (n : Int) ≤ 2 * r + 1) (p : Point) :
    p ∈ circlePoints cx cy r ↔ ∃ k, k < n ∧ p ∈ circleRound cx cy (circleState r k) := by
  have hloop : circleLoop cx cy (2 * r + 1).toNat (circleStart r) =
      (List.range n).flatMap fun k => circleRound cx cy (circleState r k) :=
    circleLoop_eq_flatMap hn.1 (by omega) hn.2
  rw [circlePoints, if_neg (by omega), hloop]
  simp only [List.mem_flatMap, List.mem_range]

/-- A circle whose radius is not positive has four times its centre (R126). -/
theorem circlePoints_of_nonpos (cx cy : Int) {r : Int} (hr : r ≤ 0) :
    circlePoints cx cy r = List.replicate 4 ⟨cx, cy⟩ := by
  have h0 : (if r < 0 then 0 else r) = 0 := by split <;> omega
  rw [circlePoints_radius, h0]
  simp [circlePoints, circleLoop, circleStart, circleStep, circleRound, List.replicate]

/-- `(dx, dy)` is `(u, v)` after none, one, two or three quarter turns (R125). -/
def QuarterTurnOf (u v dx dy : Int) : Prop :=
  (dx = u ∧ dy = v) ∨ (dx = -v ∧ dy = u) ∨ (dx = -u ∧ dy = -v) ∨ (dx = v ∧ dy = -u)

theorem mem_circleRound_iff_quarterTurn (cx cy dx dy : Int) (t : CircleState) :
    (⟨cx + dx, cy + dy⟩ : Point) ∈ circleRound cx cy t ↔ QuarterTurnOf (-t.x) t.y dx dy := by
  rw [mem_circleRound, QuarterTurnOf]
  omega

theorem OnArc.of_quarterTurn {r u v dx dy : Int} (h : OnArc r u v) (hturn : QuarterTurnOf u v dx dy) :
    OnArc r |dx| |dy| := by
  have hu := abs_of_nonneg h.1
  have hv := abs_of_nonneg h.2.1
  obtain ⟨rfl, rfl⟩ | ⟨rfl, rfl⟩ | ⟨rfl, rfl⟩ | ⟨rfl, rfl⟩ := hturn
  · rwa [hu, hv]
  · rw [abs_neg, hu, hv]
    exact h.comm
  · rwa [abs_neg, abs_neg, hu, hv]
  · rw [abs_neg, hu, hv]
    exact h.comm

/-- A point with its reflection on the arc is a quarter turn of a point of the arc off the axis where the walk ends. -/
theorem exists_quarterTurn {r dx dy : Int} (hr : 1 ≤ r) (h : OnArc r |dx| |dy|) :
    ∃ u v, OnArc r u v ∧ 1 ≤ u ∧ QuarterTurnOf u v dx dy := by
  have hne : ¬(dx = 0 ∧ dy = 0) := by
    rintro ⟨rfl, rfl⟩
    have := h.eq_of_zero hr
    rw [abs_zero] at this
    omega
  unfold QuarterTurnOf
  by_cases h1 : 0 < dx ∧ 0 ≤ dy
  · rw [abs_of_nonneg h1.1.le, abs_of_nonneg h1.2] at h
    exact ⟨dx, dy, h, by omega, by omega⟩
  by_cases h2 : dx ≤ 0 ∧ 0 < dy
  · rw [abs_of_nonpos h2.1, abs_of_nonneg h2.2.le] at h
    exact ⟨dy, -dx, h.comm, by omega, by omega⟩
  by_cases h3 : dx < 0 ∧ dy ≤ 0
  · rw [abs_of_nonpos h3.1.le, abs_of_nonpos h3.2] at h
    exact ⟨-dx, -dy, h, by omega, by omega⟩
  · rw [abs_of_nonneg (show 0 ≤ dx by omega), abs_of_nonpos (show dy ≤ 0 by omega)] at h
    exact ⟨-dy, dx, h.comm, by omega, by omega⟩

/-- A circle of positive radius is the arc, reflected into the four quadrants (R125, R127 (2)). -/
theorem mem_circlePoints_iff_onArc (cx cy dx dy : Int) {r : Int} (hr : 1 ≤ r) :
    (⟨cx + dx, cy + dy⟩ : Point) ∈ circlePoints cx cy r ↔ OnArc r |dx| |dy| := by
  obtain ⟨n, hn, hle⟩ := exists_roundCount (r := r) (by omega)
  rw [mem_circlePoints_of_roundCount (by omega) hn hle]
  simp only [mem_circleRound_iff_quarterTurn]
  constructor
  · rintro ⟨k, hk, hturn⟩
    obtain ⟨harc, -⟩ := arcRound_circleState hr (n := k) fun j hj => hn.neg hr j (by omega)
    exact harc.of_quarterTurn hturn
  · intro h
    obtain ⟨u, v, harc, hu, hturn⟩ := exists_quarterTurn hr h
    rcases visited_or_ahead hr (hn.neg hr) harc with ⟨k, hk, rfl, rfl⟩ | ⟨hx, -⟩
    · exact ⟨k, hk, hturn⟩
    · have := hn.last
      omega

/-- A circle whose radius is not positive is its centre (R126). -/
theorem mem_circlePoints_of_nonpos (cx cy dx dy : Int) {r : Int} (hr : r ≤ 0) :
    (⟨cx + dx, cy + dy⟩ : Point) ∈ circlePoints cx cy r ↔ dx = 0 ∧ dy = 0 := by
  simp [circlePoints_of_nonpos cx cy hr]

/-- Whether a point is one of a circle depends on its distances from the centre along the axes, and not on their order
(R127 (2)). -/
theorem mem_circlePoints_congr (cx cy r : Int) {dx dy ex ey : Int}
    (h : (|ex| = |dx| ∧ |ey| = |dy|) ∨ (|ex| = |dy| ∧ |ey| = |dx|))
    (hp : (⟨cx + dx, cy + dy⟩ : Point) ∈ circlePoints cx cy r) :
    (⟨cx + ex, cy + ey⟩ : Point) ∈ circlePoints cx cy r := by
  by_cases hr : 1 ≤ r
  · rw [mem_circlePoints_iff_onArc _ _ _ _ hr] at hp ⊢
    rcases h with ⟨hx, hy⟩ | ⟨hx, hy⟩ <;> rw [hx, hy]
    · exact hp
    · exact hp.comm
  · rw [mem_circlePoints_of_nonpos _ _ _ _ (by omega)] at hp ⊢
    obtain ⟨rfl, rfl⟩ := hp
    simpa using h

/-- No point of a circle is farther than `r` from the centre along an axis. -/
theorem mem_circlePoints_le {cx cy r dx dy : Int} (hr : 0 ≤ r)
    (hp : (⟨cx + dx, cy + dy⟩ : Point) ∈ circlePoints cx cy r) : |dx| ≤ r ∧ |dy| ≤ r := by
  rcases hr.eq_or_lt with rfl | hpos
  · obtain ⟨rfl, rfl⟩ := (mem_circlePoints_of_nonpos cx cy dx dy le_rfl).1 hp
    simp
  · exact ((mem_circlePoints_iff_onArc cx cy dx dy hpos).1 hp).le hr

/-- The first point of a circle (R125). -/
theorem mem_circlePoints_axis (cx cy : Int) {r : Int} (hr : 0 ≤ r) :
    (⟨cx + r, cy + 0⟩ : Point) ∈ circlePoints cx cy r := by
  rcases hr.eq_or_lt with rfl | hpos
  · exact (mem_circlePoints_of_nonpos cx cy 0 0 le_rfl).2 ⟨rfl, rfl⟩
  · rw [mem_circlePoints_iff_onArc cx cy r 0 hpos, abs_of_nonneg hr, abs_zero]
    exact onArc_start hpos

end Machine
end Sys2Proof

open Sys2Proof Sys2Proof.Machine

/-- Settles O30: the rounds are the states of the loop, and each round's points are the four of R125. -/
theorem circleFollowsTheQuadrantRecurrence : Obligations.CircleFollowsTheQuadrantRecurrence := by
  unfold Obligations.CircleFollowsTheQuadrantRecurrence
  intro s cx cy r0 hs
  obtain ⟨r, hr⟩ : ∃ r, r = if r0 < 0 then 0 else r0 := ⟨_, rfl⟩
  have hr0 : 0 ≤ r := by rw [hr]; split <;> omega
  obtain ⟨n, hn, hle⟩ := exists_roundCount hr0
  obtain ⟨t, hexec, hframe, hpixel, -⟩ := drawPixels_ors_points hs (circlePoints cx cy r0)
  refine ⟨r, n, fun k => (circleState r k).x, fun k => (circleState r k).y, fun k => (circleState r k).err, t, hr, hn.1,
    hle, rfl, rfl, rfl, fun k hk => ?_, hexec, hframe, fun u v hb => ?_⟩
  · have htests := circleStep_tests (circleState r k)
    rw [← circleState_succ] at htests
    obtain ⟨e1, hy, hy', hx, hx'⟩ := htests
    exact ⟨e1, hy, hy', hx, hx', hn.2 k hk⟩
  · rw [hpixel u v hb, circlePoints_radius, ← hr, mem_circlePoints_of_roundCount hr0 hn hle]
    simp only [mem_circleRound]

/-- Settles O31: DrawCircle calls SetPixel four times on the centre, and the last three change nothing. -/
theorem nonPositiveRadiusIsTheCentre : Obligations.NonPositiveRadiusIsTheCentre := by
  unfold Obligations.NonPositiveRadiusIsTheCentre
  intro s cx cy r hr
  change drawPixels (circlePoints cx cy r) s = drawPixels [⟨cx, cy⟩] s
  rw [circlePoints_of_nonpos cx cy hr]
  simp only [List.replicate, drawPixels_repeat]

/-- Settles O32: a quarter turn exchanges the distances along the axes. -/
theorem circlePointsAreClosedUnderQuarterTurns : Obligations.CirclePointsAreClosedUnderQuarterTurns := by
  unfold Obligations.CirclePointsAreClosedUnderQuarterTurns
  intro cx cy r dx dy hp
  exact mem_circlePoints_congr cx cy r (ex := -dy) (.inr ⟨abs_neg dy, rfl⟩) hp

/-- Settles O34: a reflection keeps the distances along the axes. -/
theorem circlePointsAreClosedUnderReflection : Obligations.CirclePointsAreClosedUnderReflection := by
  unfold Obligations.CirclePointsAreClosedUnderReflection
  intro cx cy r dx dy _ hp
  exact ⟨mem_circlePoints_congr cx cy r (ex := -dx) (.inl ⟨abs_neg dx, rfl⟩) hp,
    mem_circlePoints_congr cx cy r (ey := -dy) (.inl ⟨rfl, abs_neg dy⟩) hp⟩

/-- Settles O33: the arc lies in the square of side `r`, and starts on its border. -/
theorem circleTouchesAndStaysWithinItsBoundingSquare : Obligations.CircleTouchesAndStaysWithinItsBoundingSquare := by
  unfold Obligations.CircleTouchesAndStaysWithinItsBoundingSquare
  intro cx cy r hr
  have haxis : (⟨cx + r, cy + 0⟩ : Point) ∈ circlePoints cx cy r := mem_circlePoints_axis cx cy hr
  refine ⟨fun p hp => ?_, by simpa using haxis, ?_, ?_, ?_⟩
  · exact mem_circlePoints_le (cx := cx) (cy := cy) hr (by simpa using hp)
  · simpa using mem_circlePoints_congr cx cy r (ex := 0) (ey := r) (.inr ⟨rfl, rfl⟩) haxis
  · simpa [sub_eq_add_neg] using mem_circlePoints_congr cx cy r (ex := -r) (.inl ⟨abs_neg r, rfl⟩) haxis
  · simpa [sub_eq_add_neg] using mem_circlePoints_congr cx cy r (ex := 0) (ey := -r) (.inr ⟨rfl, abs_neg r⟩) haxis

end

section
/-! PROOFS (glyph table). The table's queries by the kind of font: a fixed font answers by its cell width, a variable font
by its tables, whose entry for a printable code a well-formed configuration always has (R163 to R166). -/

namespace Sys2Proof

section
variable {c : Config} {ch : Byte}

theorem Config.glyphWidth_fixed {w : Byte} (h : c.glyphs.font = .fixed w) : c.glyphWidth ch = w := by
  rw [Config.glyphWidth, h]

theorem Config.glyphByteOffset_fixed {w : Byte} (h : c.glyphs.font = .fixed w) :
    c.glyphByteOffset ch = c.charIndex ch * w.toNat * c.glyphPages := by
  rw [Config.glyphByteOffset, h]

theorem Config.glyphWidth_variable {ws : List Byte} {os : List (BitVec 32)} {sp w : Byte}
    (h : c.glyphs.font = .variable ws os sp) (hw : ws[c.charIndex ch]? = some w) : c.glyphWidth ch = w := by
  simp [Config.glyphWidth, h, hw]

theorem Config.glyphByteOffset_variable {ws : List Byte} {os : List (BitVec 32)} {sp : Byte} {o : BitVec 32}
    (h : c.glyphs.font = .variable ws os sp) (ho : os[c.charIndex ch]? = some o) : c.glyphByteOffset ch = o.toNat := by
  simp [Config.glyphByteOffset, h, ho]

/-- A printable code has an entry in both tables of a variable font (R163, item 3). -/
theorem Config.exists_tableEntry {ws : List Byte} {os : List (BitVec 32)} {sp : Byte} (hwf : c.wf = true)
    (h : c.glyphs.font = .variable ws os sp) (hp : c.IsPrintable ch) :
    ∃ w o, ws[c.charIndex ch]? = some w ∧ os[c.charIndex ch]? = some o := by
  obtain ⟨-, htables, -⟩ := (Config.glyphsWf_iff c).1 ((Config.wf_iff c).1 hwf).2
  obtain ⟨hws, hos⟩ := (GlyphTable.tablesWf_iff _).1 htables ws os sp h
  have hindex : c.charIndex ch < c.glyphs.lastChar.toNat - c.glyphs.firstChar.toNat + 1 :=
    Nat.lt_succ_of_le (Nat.sub_le_sub_right hp.2 _)
  exact ⟨_, _, List.getElem?_eq_getElem (hws ▸ hindex), List.getElem?_eq_getElem (hos ▸ hindex)⟩

end

end Sys2Proof

open Sys2Proof Sys2Proof.Machine

/-- Settles O38: the two answers of GQUERY, and for a printable code the table's queries by the kind of font. -/
theorem gqueryAnswersTheTable : Obligations.GqueryAnswersTheTable := by
  unfold Obligations.GqueryAnswersTheTable
  intro s c hwf
  refine ⟨fun hp => ?_, fun hp => (exec_eq_next _ _ _).2 (.gqueryOther hp)⟩
  have hexec : exec (.gquery c) s = .next (s.withGlyph true (s.cfg.glyphWidth c) (s.cfg.glyphByteOffset c)) :=
    (exec_eq_next _ _ _).2 (.gqueryPrintable hp)
  refine ⟨fun w hfixed => ?_, fun ws os sp hvariable => ?_⟩
  · rw [hexec, Config.glyphWidth_fixed hfixed, Config.glyphByteOffset_fixed hfixed]
    rfl
  · obtain ⟨w, o, hw, ho⟩ := Config.exists_tableEntry hwf hvariable hp
    refine ⟨w, o, hw, ho, ?_⟩
    rw [hexec, Config.glyphWidth_variable hvariable hw, Config.glyphByteOffset_variable hvariable ho, State.withGlyph,
      BitVec.ofNat_toNat, BitVec.setWidth_eq]

end

section
/-! PROOFS (text engine). The clamped cursor and AdvanceLine, the four things TEXT can do with its first character, each as
one equation of `exec`, and the framebuffer after one glyph (R180 to R192). -/

namespace Sys2Proof

/-! ## The glyph table -/

theorem Config.spaceWidth_fixed {c : Config} {w : Byte} (h : c.glyphs.font = .fixed w) : c.spaceWidth = w.toNat := by
  rw [Config.spaceWidth, h]

theorem Config.spaceWidth_variable {c : Config} {ws : List Byte} {os : List (BitVec 32)} {sp : Byte}
    (h : c.glyphs.font = .variable ws os sp) : c.spaceWidth = sp.toNat := by
  rw [Config.spaceWidth, h]

/-- A byte of a printable glyph is a byte of the ROM, not a free value (R162, R163). -/
theorem Config.getElem?_glyphByte {c : Config} (h : c.wf = true) {ch : Byte} (hc : c.IsPrintable ch) {p i : Nat}
    (hp : p < c.glyphPages) (hi : i < (c.glyphWidth ch).toNat) :
    c.glyphs.bitmapData[c.glyphByteOffset ch + p * (c.glyphWidth ch).toNat + i]? = some (c.glyphByte ch p i) := by
  have hrom := Config.glyph_in_rom h ch hc
  have hpage : (p + 1) * (c.glyphWidth ch).toNat ≤ c.glyphPages * (c.glyphWidth ch).toNat := Nat.mul_le_mul_right _ hp
  rw [Nat.succ_mul] at hpage
  rw [Nat.mul_comm (c.glyphWidth ch).toNat] at hrom
  have hlt : c.glyphByteOffset ch + p * (c.glyphWidth ch).toNat + i < c.glyphs.bitmapData.length := by omega
  simp [Config.glyphByte, Config.romByte, hlt]

namespace Machine

/-! ## The cursor -/

/-- AdvanceLine fails just past the last text line (R182). -/
theorem advanceLine_eq_none (c : Config) (cur : Cursor) :
    advanceLine c cur = none ↔ c.pages < cur.row.toNat + 2 * c.glyphPages := by
  rw [advanceLine]
  split
  · exact iff_of_true rfl (by omega)
  · exact iff_of_false nofun (by omega)

theorem exists_advanceLine {c : Config} {cur : Cursor} (h : cur.row.toNat + 2 * c.glyphPages ≤ c.pages) :
    ∃ cur1, advanceLine c cur = some cur1 :=
  Option.ne_none_iff_exists'.1 fun hnone => absurd ((advanceLine_eq_none c cur).1 hnone) (Nat.not_lt.2 h)

/-- Moving a cursor in range `n` columns to the right clamps its column, and its row stays (R180, R186, R187). -/
theorem setCursor_right {c : Config} (h : c.wf = true) {cur : Cursor} (hc : CursorInRange c cur) (n : Nat) :
    (setCursor c (cur.col.toNat + n) cur.row.toNat).col.toNat = min (c.width - 1) (cur.col.toNat + n) ∧
      (setCursor c (cur.col.toNat + n) cur.row.toNat).row = cur.row := by
  obtain ⟨hcol, hrow⟩ := setCursor_eq h (cur.col.toNat + n) cur.row.toNat
  obtain ⟨hcol_lt, hrow_le⟩ := hc
  exact ⟨by omega, BitVec.eq_of_toNat_eq (by omega)⟩

/-- A glyph that ends before the right edge is drawn at the cursor (R187). -/
theorem wrapCursor_of_room {c : Config} {w : Nat} {cur : Cursor} (h : cur.col.toNat + w < c.width) :
    wrapCursor c w cur = some cur := if_neg (Nat.not_le.2 h)

/-- A glyph that reaches the right edge is drawn on the next text line (R187). -/
theorem wrapCursor_of_edge {c : Config} {w : Nat} {cur : Cursor} (h : c.width ≤ cur.col.toNat + w) :
    wrapCursor c w cur = advanceLine c cur := if_pos h

/-! ## One character of TEXT -/

theorem textRun_space (c : Config) (rest : List Byte) (cur : Cursor) :
    textRun c (spaceCode :: rest) cur = textRun c rest (spaceStep c cur) := if_pos rfl

section
variable {c : Config} {ch : Byte} (hspace : ch ≠ spaceCode) (rest : List Byte) {cur : Cursor}
include hspace

theorem textRun_skipped (hp : ¬c.IsPrintable ch) : textRun c (ch :: rest) cur = textRun c rest cur := by
  rw [textRun, if_neg hspace, if_neg hp]

theorem textRun_stop (hp : c.IsPrintable ch) (hw : wrapCursor c (c.glyphWidth ch).toNat cur = none) :
    textRun c (ch :: rest) cur = (cur, []) := by
  rw [textRun, if_neg hspace, if_pos hp, glyphStep, hw]

end

/-- `s` after `Blit` of the glyph of `ch` at `cur` (R184). -/
def State.blitted (s : State) (ch : Byte) (cur : Cursor) : State :=
  s.withFb (applyWrites s.resetEpoch s.fb (blitWrites s.cfg cur (s.cfg.glyphByteOffset ch) (s.cfg.glyphWidth ch).toNat))

/-- The cursor after the glyph of `ch` at `cur`, before the character `next` (R187). -/
def cursorAfter (c : Config) (ch : Byte) (next : Option Byte) (cur : Cursor) : Cursor :=
  setCursor c (cur.col.toNat + glyphAdvance c (c.glyphWidth ch).toNat next) cur.row.toNat

/-- The column after a glyph is past it, and past `SEP` unless a space follows, clamped; the row stays (R187). -/
theorem cursorAfter_eq {c : Config} (h : c.wf = true) (ch : Byte) (next : Option Byte) {cur : Cursor}
    (hc : CursorInRange c cur) :
    (cursorAfter c ch next cur).col.toNat = min (c.width - 1)
        (cur.col.toNat + (c.glyphWidth ch).toNat + if next = some spaceCode then 0 else c.separation) ∧
      (cursorAfter c ch next cur).row = cur.row := by
  obtain ⟨hcol, hrow⟩ := setCursor_right h hc (glyphAdvance c (c.glyphWidth ch).toNat next)
  refine ⟨hcol.trans ?_, hrow⟩
  rw [glyphAdvance, Nat.add_assoc]
  split <;> rfl

/-- `s` after the glyph of `ch` at `cur`, before the character `next` (R187). -/
def State.afterGlyph (s : State) (ch : Byte) (next : Option Byte) (cur : Cursor) : State :=
  (s.blitted ch cur).withCursor (cursorAfter s.cfg ch next cur)

theorem textRun_glyph {c : Config} {ch : Byte} (hspace : ch ≠ spaceCode) (hp : c.IsPrintable ch) (rest : List Byte)
    {cur cur1 : Cursor} (hw : wrapCursor c (c.glyphWidth ch).toNat cur = some cur1) :
    textRun c (ch :: rest) cur = ((textRun c rest (cursorAfter c ch rest.head? cur1)).1,
      blitWrites c cur1 (c.glyphByteOffset ch) (c.glyphWidth ch).toNat ++
        (textRun c rest (cursorAfter c ch rest.head? cur1)).2) := by
  rw [textRun, if_neg hspace, if_pos hp, glyphStep, hw]
  rfl

theorem exec_text_nil (s : State) : exec (.text []) s = .next s := rfl

/-- TEXT depends on its string and its cursor only through the run. -/
theorem exec_text_congr {s : State} {str rest : List Byte} {cur : Cursor}
    (h : textRun s.cfg str s.cursor = textRun s.cfg rest cur) :
    exec (.text str) s = exec (.text rest) (s.withCursor cur) := by
  rw [exec, execText, h]
  rfl

/-- A glyph that is drawn is TEXT's first step, and the rest follows from the state it leaves (R185, R187). -/
theorem exec_text_glyph {s : State} {ch : Byte} {cur : Cursor} (hspace : ch ≠ spaceCode) (hp : s.cfg.IsPrintable ch)
    (rest : List Byte) (hw : wrapCursor s.cfg (s.cfg.glyphWidth ch).toNat s.cursor = some cur)
    (hc : CursorInRange s.cfg cur) :
    exec (.text (ch :: rest)) s = exec (.text rest) (s.afterGlyph ch rest.head? cur) := by
  rw [exec, execText, textRun_glyph hspace hp rest hw]
  exact commit_append _ _ _ _ (commit_next _ _ fun w hmem => (blitWrites_index _ _ _ _ hc w hmem).2)

theorem exec_text_glyph_of_room {s : State} (hs : StateInv s) {ch : Byte} (hspace : ch ≠ spaceCode)
    (hp : s.cfg.IsPrintable ch) (rest : List Byte)
    (hroom : s.cursor.col.toNat + (s.cfg.glyphWidth ch).toNat < s.cfg.width) :
    exec (.text (ch :: rest)) s = exec (.text rest) (s.afterGlyph ch rest.head? s.cursor) :=
  exec_text_glyph hspace hp rest (wrapCursor_of_room hroom) hs.cursorInRange

/-- The state after a glyph has the invariant (R25, R190). -/
theorem StateInv.afterGlyph {s : State} (hs : StateInv s) (ch : Byte) (next : Option Byte) {cur : Cursor}
    (hc : CursorInRange s.cfg cur) : StateInv (s.afterGlyph ch next cur) :=
  (hs.withFb (applyWrites_fbOk hs.fbOk _ fun w hmem => (blitWrites_index _ _ _ _ hc w hmem).2)).withCursor
    (setCursor_inRange hs.config _ _)

/-! ## The framebuffer after one glyph -/

section
variable (s : State) (ch : Byte) (next : Option Byte) (cur : Cursor)

/-- A byte of the glyph on the canvas holds its ROM byte (R184, R191). -/
theorem fbByte_afterGlyph_inside {p i : Nat} (hp : p < s.cfg.glyphPages) (hi : i < (s.cfg.glyphWidth ch).toNat)
    (hx : cur.col.toNat + i < s.cfg.width) :
    (s.afterGlyph ch next cur).fbByte (s.cfg.pageIndex (cur.col.toNat + i) (cur.row.toNat + p)) =
      s.cfg.glyphByte ch p i :=
  congrArg (Option.getD · _) (read_blitWrites s.cfg cur _ _ s.resetEpoch s.fb p i hp hi hx)

/-- A byte that is none of the glyph's on the canvas is kept (R184). -/
theorem fbByte_afterGlyph_other {j : Nat} (h : ∀ p i, p < s.cfg.glyphPages → i < (s.cfg.glyphWidth ch).toNat →
      cur.col.toNat + i < s.cfg.width → j ≠ s.cfg.pageIndex (cur.col.toNat + i) (cur.row.toNat + p)) :
    (s.afterGlyph ch next cur).fbByte j = s.fbByte j := by
  refine byte_applyWrites_other _ _ fun w hw => ?_
  obtain ⟨p, i, hp, hi, hx, rfl⟩ := (mem_blitWrites _ _ _ _ _).1 hw
  exact (h p i hp hi hx).symm

/-- A column outside the glyph's is kept (R184). -/
theorem fbByte_afterGlyph_column {x : Nat} (pg : Nat) (hx : x < s.cfg.width)
    (h : x < cur.col.toNat ∨ cur.col.toNat + (s.cfg.glyphWidth ch).toNat ≤ x) :
    (s.afterGlyph ch next cur).fbByte (s.cfg.pageIndex x pg) = s.fbByte (s.cfg.pageIndex x pg) := by
  refine fbByte_afterGlyph_other s ch next cur fun p i _ hi hcol he => ?_
  obtain ⟨hsame, -⟩ := s.cfg.pageIndex_inj hx hcol he
  omega

end

end Machine
end Sys2Proof

open Sys2Proof Sys2Proof.Machine

/-- Settles O44: the wrap gives the cursor the glyph is drawn at, and the state after that glyph is the witness. -/
theorem textGlyphIsBlittedAndTheRestFollows : Obligations.TextGlyphIsBlittedAndTheRestFollows := by
  unfold Obligations.TextGlyphIsBlittedAndTheRestFollows
  intro s c rest hs hspace hp col row hroom hedge
  obtain ⟨cur, hwrap, rfl, rfl⟩ : ∃ cur, wrapCursor s.cfg (s.cfg.glyphWidth c).toNat s.cursor = some cur ∧
      col = cur.col.toNat ∧ row = cur.row.toNat := by
    rcases Nat.lt_or_ge (s.cursor.col.toNat + (s.cfg.glyphWidth c).toNat) s.cfg.width with h | h
    · exact ⟨s.cursor, wrapCursor_of_room h, hroom h⟩
    · obtain ⟨hcol, hrow, hline⟩ := hedge h
      obtain ⟨cur, hadvance⟩ := exists_advanceLine hline
      obtain ⟨hcur_col, hcur_row, -⟩ := advanceLine_eq_some hs.config _ _ hadvance
      exact ⟨cur, (wrapCursor_of_edge h).trans hadvance, hcol.trans hcur_col.symm, hrow.trans hcur_row.symm⟩
  have hrange := wrapCursor_inRange hs.config _ _ _ hs.cursorInRange hwrap
  obtain ⟨hcol, hrow⟩ := cursorAfter_eq hs.config c rest.head? hrange
  refine ⟨_, exec_text_glyph hspace hp rest hwrap hrange, rfl, congrArg BitVec.toNat hrow, hcol,
    fun p i hpage hi hx => ?_, fun j => fbByte_afterGlyph_other s c rest.head? cur⟩
  exact (Config.getElem?_glyphByte hs.config hp hpage hi).trans
    (congrArg some (fbByte_afterGlyph_inside s c rest.head? cur hpage hi hx).symm)

/-- Settles O39: SETCUR is SetCursor. -/
theorem setcurClampsTheCursor : Obligations.SetcurClampsTheCursor := by
  unfold Obligations.SetcurClampsTheCursor
  intro s col row hwf
  exact ⟨setCursor s.cfg col row, rfl, setCursor_eq hwf col row⟩

/-- Settles O40: the two answers of AdvanceLine. -/
theorem nextlineAdvancesOrSignals : Obligations.NextlineAdvancesOrSignals := by
  unfold Obligations.NextlineAdvancesOrSignals
  intro s hwf
  obtain ⟨-, hpages⟩ := Config.pages_of_wf hwf
  refine ⟨fun h => ?_, fun h => ?_⟩
  · exact (exec_eq_next _ _ _).2 (.nextlineFails ((advanceLine_eq_none _ _).2 (by omega)))
  · obtain ⟨cur, hadvance⟩ := exists_advanceLine (c := s.cfg) (cur := s.cursor) (by omega)
    obtain ⟨hcol, hrow, -⟩ := advanceLine_eq_some hwf _ _ hadvance
    exact ⟨cur, (exec_eq_next _ _ _).2 (.nextlineAdvances hadvance), hcol, hrow⟩

/-- Settles O41: the run keeps its cursor and all its writes in range, so no write is refused, and the bytes outside are
among those no write names. -/
theorem textWritesOnlyCursorAndBlits : Obligations.TextWritesOnlyCursorAndBlits := by
  unfold Obligations.TextWritesOnlyCursorAndBlits
  intro s str hs
  obtain ⟨⟨hcol, hrow⟩, hindex⟩ := textRun_range hs.config str s.cursor hs.cursorInRange
  refine ⟨_, (exec_text_eq_next str s _).2 ⟨fun w hw => (hindex w hw).2, rfl⟩, rfl, hcol, hrow,
    fun i hi => byte_applyWrites_other _ _ hi, byte_applyWrites_other _ _ fun w hw => ?_,
    fun i hi => byte_applyWrites_other _ _ fun w hw => ?_⟩
  · exact Nat.ne_of_gt (hindex w hw).1
  · exact Nat.ne_of_lt ((hindex w hw).2.trans_le hi)

/-- Settles O42: a space is one SpaceStep before the rest of the run, and a skipped character is no step of it. -/
theorem textSpacesAndSkippedCharacters : Obligations.TextSpacesAndSkippedCharacters := by
  unfold Obligations.TextSpacesAndSkippedCharacters
  intro s c rest hs
  refine ⟨exec_text_nil s, ?_, fun hspace hp => exec_text_congr (textRun_skipped hspace rest hp)⟩
  rintro rfl
  obtain ⟨hcol, hrow⟩ := setCursor_right hs.config hs.cursorInRange s.cfg.spaceWidth
  rw [Nat.min_comm] at hcol
  refine ⟨spaceStep s.cfg s.cursor, fun w hfixed => ?_, fun ws os sp hvariable => ?_, hrow,
    exec_text_congr (textRun_space s.cfg rest s.cursor)⟩
  · exact Config.spaceWidth_fixed hfixed ▸ hcol
  · exact Config.spaceWidth_variable hvariable ▸ hcol

/-- Settles O43: the wrap fails, so the run ends as it does on no character at all. -/
theorem textStopsWhenNoLineIsLeft : Obligations.TextStopsWhenNoLineIsLeft := by
  unfold Obligations.TextStopsWhenNoLineIsLeft
  intro s c rest hspace hp hedge hline
  have hwrap := (wrapCursor_of_edge hedge).trans ((advanceLine_eq_none _ _).2 hline)
  exact (exec_text_congr (rest := []) (textRun_stop hspace rest hp hwrap)).trans (exec_text_nil s)

/-- Settles O45: both glyphs have room, 'A' moves the cursor to column 6, and the columns left of that are not those of
'B'. -/
theorem textABLeavesAOnePixelGap : Obligations.TextABLeavesAOnePixelGap := by
  unfold Obligations.TextABLeavesAOnePixelGap
  intro s hs hfixed hsep hwidth hcursor hA hB
  have hw : ∀ ch, (s.cfg.glyphWidth ch).toNat = 5 := fun ch => by rw [Config.glyphWidth_fixed hfixed]; rfl
  have hcol : s.cursor.col.toNat = 0 := by rw [hcursor]; rfl
  have hrow : s.cursor.row.toNat = 0 := by rw [hcursor]; rfl
  obtain ⟨a, ha⟩ : ∃ a, a = s.afterGlyph 0x41 (some 0x42) s.cursor := ⟨_, rfl⟩
  have hacfg : a.cfg = s.cfg := by rw [ha]; rfl
  obtain ⟨hacol, harow⟩ : a.cursor.col.toNat = 6 ∧ a.cursor.row.toNat = 0 := by
    obtain ⟨h, h'⟩ := cursorAfter_eq hs.config 0x41 (some 0x42) hs.cursorInRange
    rw [hcol, hw, hsep, if_neg (by decide)] at h
    exact ha ▸ ⟨h.trans (by omega), (congrArg BitVec.toNat h').trans hrow⟩
  have hexec : exec (.text [0x41, 0x42]) s = .next (a.afterGlyph 0x42 none a.cursor) := by
    have hainv : StateInv a := ha ▸ hs.afterGlyph _ _ hs.cursorInRange
    rw [exec_text_glyph_of_room hs (by decide) hA [0x42] (by rw [hcol, hw]; omega), List.head?_cons, ← ha,
      exec_text_glyph_of_room hainv (by decide) (hacfg ▸ hB) [] (by rw [hacol, hacfg, hw]; omega)]
    rfl
  refine ⟨_, hexec, fun p hp => ?_⟩
  have hkept : ∀ x < 6, (a.afterGlyph 0x42 none a.cursor).fbByte (s.cfg.pageIndex x p) =
      a.fbByte (s.cfg.pageIndex x p) := fun x hx => by
    rw [← hacfg]
    exact fbByte_afterGlyph_column a 0x42 none a.cursor p (by rw [hacfg]; omega) (.inl (by omega))
  refine ⟨fun i hi => (hkept i (by omega)).trans ?_, fun i hi => ?_, (hkept 5 (by omega)).trans ?_⟩
  · have h := fbByte_afterGlyph_inside s 0x41 (some 0x42) s.cursor hp (hw _ ▸ hi) (by omega)
    rwa [← ha, hcol, hrow, Nat.zero_add, Nat.zero_add] at h
  · have h := fbByte_afterGlyph_inside a 0x42 none a.cursor (hacfg ▸ hp) (by rw [hacfg, hw]; exact hi)
      (by rw [hacfg]; omega)
    rwa [hacfg, hacol, harow, Nat.zero_add] at h
  · rw [ha]
    exact fbByte_afterGlyph_column s 0x41 (some 0x42) s.cursor p (by omega) (.inr (by rw [hcol, hw]))

end

section
/-! PROOFS (exceptions). The illegal headers by their value, that every command has an effect from a state with the
invariant, and the three outcomes of a step that executes nothing (R71, R220 to R228). -/

namespace Sys2Proof

open Machine

/-! ## The cause table -/

theorem headerRsv_ne_zero_iff (h : Word) : headerRsv h ≠ 0 ↔ 0x100 ≤ h.toNat := by
  have hzero : headerRsv h = 0 ↔ h.toNat / 256 = 0 := by rw [← toNat_headerRsv]; exact BitVec.toNat_inj.symm
  rw [Ne, hzero]
  omega

/-- Exactly the opcodes outside 0x01 to 0x0B are unassigned (R84). -/
theorem opcodeOf_eq_none_iff (b : Byte) : opcodeOf b = none ↔ b.toNat = 0 ∨ 0x0C ≤ b.toNat := by
  refine ⟨opcodeOf_eq_none b, fun hrange => Option.eq_none_iff_forall_ne_some.2 fun op hop => ?_⟩
  have hvalue : b.toNat = opcodeValue op := toNat_of_opcodeOf hop
  cases op <;> simp only [opcodeValue] at hvalue <;> omega

/-- A header is illegal by its opcode just when its value is 0 or in 0x0C to 0xFF: its bits [15:8] pass the check that
comes first (R221, R227). -/
theorem unassigned_header_iff (h : Word) : headerRsv h = 0 ∧ opcodeOf (headerOp h) = none ↔
    h.toNat = 0 ∨ (0x0C ≤ h.toNat ∧ h.toNat ≤ 0xFF) := by
  rw [← not_ne_iff, headerRsv_ne_zero_iff, opcodeOf_eq_none_iff, toNat_headerOp]
  omega

theorem decode_of_reserved_bits {h : Word} (hrsv : headerRsv h ≠ 0) (ws : List Word) :
    decode (h :: ws) = .illegal .reservedHeaderBits h := by
  rw [decode, if_pos hrsv]

theorem decode_of_unassigned_opcode {h : Word} (hrsv : headerRsv h = 0) (hop : opcodeOf (headerOp h) = none)
    (ws : List Word) : decode (h :: ws) = .illegal .unassignedOpcode h := by
  rw [decode, if_neg (not_not.2 hrsv), hop]

/-- Cause 1 is the header check on bits [15:8] alone (R221). -/
theorem decode_eq_reserved_iff (h : Word) (ws : List Word) :
    decode (h :: ws) = .illegal .reservedHeaderBits h ↔ headerRsv h ≠ 0 := by
  refine ⟨fun hd => ?_, fun hrsv => decode_of_reserved_bits hrsv ws⟩
  obtain ⟨-, ⟨-, hrsv⟩ | ⟨hcause, -⟩⟩ := decode_eq_illegal _ _ _ hd
  · exact hrsv
  · cases hcause

/-- Cause 2 is an opcode without a command, under a header that passes the check of cause 1 (R221, R227). -/
theorem decode_eq_unassigned_iff (h : Word) (ws : List Word) :
    decode (h :: ws) = .illegal .unassignedOpcode h ↔ headerRsv h = 0 ∧ opcodeOf (headerOp h) = none := by
  refine ⟨fun hd => ?_, fun ⟨hrsv, hop⟩ => decode_of_unassigned_opcode hrsv hop ws⟩
  obtain ⟨-, ⟨hcause, -⟩ | ⟨-, hheader⟩⟩ := decode_eq_illegal _ _ _ hd
  · cases hcause
  · exact hheader

namespace Machine

/-! ## Every command has an effect -/

/-- SetPixel asks only for bytes that exist, so a command that only draws points is never refused a write (R71, R106). -/
theorem exists_effect_of_rasterPoints {s : State} (hs : StateInv s) {i : Instr} {ps : List Point}
    (hr : rasterPoints s.cfg i = some ps) : ∃ t, Effect s i t :=
  ⟨_, .raster hr fun w hw => (pixelWrites_index (Config.geometry_of_wf hs.config) ps w hw).2⟩

/-- No operand stops a command: from a state with the invariant each has an effect (R71, R228). -/
theorem exists_effect {s : State} (hs : StateInv s) (i : Instr) : ∃ t, Effect s i t := by
  cases i with
  | addr x y =>
    by_cases hb : s.cfg.InBounds x y
    · exact ⟨_, .addrInside hb⟩
    · exact ⟨_, .addrOutside hb⟩
  | gquery ch =>
    by_cases hp : s.cfg.IsPrintable ch
    · exact ⟨_, .gqueryPrintable hp⟩
    · exact ⟨_, .gqueryOther hp⟩
  | nextline =>
    cases ha : advanceLine s.cfg s.cursor with
    | none => exact ⟨_, .nextlineFails ha⟩
    | some cur => exact ⟨_, .nextlineAdvances ha⟩
  | text str =>
    obtain ⟨-, hindex⟩ := textRun_range hs.config str s.cursor hs.cursorInRange
    exact ⟨_, .text fun w hw => (hindex w hw).2⟩
  | clear => exact ⟨_, .clear⟩
  | setcur col row => exact ⟨_, .setcur⟩
  | pset x y => exact exists_effect_of_rasterPoints hs rfl
  | line x1 y1 x2 y2 => exact exists_effect_of_rasterPoints hs rfl
  | circle cx cy r => exact exists_effect_of_rasterPoints hs rfl
  | polygon vs => exact exists_effect_of_rasterPoints hs rfl
  | polyline vs => exact exists_effect_of_rasterPoints hs rfl

/-! ## The steps that execute nothing -/

section
variable {s : State} (hwf : s.cfg.wf = true)
include hwf

/-- An illegal header is the step to the state IllegalCommand records (R222). -/
theorem step_of_illegal (herr : s.err = false) {cause : IllegalCause} {h : Word}
    (hd : decode s.queue = .illegal cause h) : step s = .next (raiseIllegalCommand cause h s) :=
  (step_eq_next s _).2 ⟨hwf, herr, .inl ⟨cause, h, hd, rfl⟩⟩

/-- The `ERR` check comes before the queue is looked at (R223). -/
theorem step_of_err (herr : s.err = true) : step s = .fault .halted := by
  rw [step, if_pos hwf, if_pos herr]

theorem step_of_noWord (herr : s.err = false) (hd : decode s.queue = .noWord) : step s = .fault .noWordQueued := by
  simp [step, hwf, herr, hd]

theorem step_of_incomplete (herr : s.err = false) (hd : decode s.queue = .incomplete) :
    step s = .fault .incompleteCommand := by
  simp [step, hwf, herr, hd]

end

end Machine
end Sys2Proof

open Sys2Proof Sys2Proof.Machine

/-- Settles O5: each cause is a test on the header word alone, and both tests are ranges of its value. -/
theorem illegalHeadersAreThoseOfTheCauseTable : Obligations.IllegalHeadersAreThoseOfTheCauseTable := by
  unfold Obligations.IllegalHeadersAreThoseOfTheCauseTable
  refine ⟨rfl, rfl, fun h ws => ⟨?_, ?_, fun cause h' hd => ?_⟩⟩
  · rw [decode_eq_reserved_iff, headerRsv_ne_zero_iff]
  · rw [decode_eq_unassigned_iff, unassigned_header_iff]
  · obtain ⟨hhead, -⟩ := decode_eq_illegal _ _ _ hd
    exact (Option.some.inj hhead).symm

/-- Settles O46: every command has an effect, and the fault record is in the frame of every effect. -/
theorem everyCommandCompletes : Obligations.EveryCommandCompletes := by
  unfold Obligations.EveryCommandCompletes
  intro s i hs
  obtain ⟨t, heff⟩ := exists_effect hs i
  obtain ⟨-, herr, hcause, hword, hpos, -⟩ := heff.frame
  exact ⟨t, (exec_eq_next i s t).2 heff, herr, hcause, hword, hpos⟩

/-- Settles O11: the step raises IllegalCommand, whose cause code is the statement's, cause by cause. -/
theorem illegalHeaderRecordsTheFault : Obligations.IllegalHeaderRecordsTheFault := by
  unfold Obligations.IllegalHeaderRecordsTheFault
  intro s cause h hwf herr hd
  rw [step_of_illegal hwf herr hd]
  cases cause <;> rfl

/-- Settles O12: sending words changes neither the configuration nor `ERR`. -/
theorem haltedEngineTakesNoStep : Obligations.HaltedEngineTakesNoStep := by
  unfold Obligations.HaltedEngineTakesNoStep
  intro s ws hwf herr
  exact step_of_err (s := hostSend ws s) hwf herr

/-- Settles O13: an empty queue is read as no word, and each of the two answers of the decoder has its outcome. -/
theorem incompleteCommandHasNoStep : Obligations.IncompleteCommandHasNoStep := by
  unfold Obligations.IncompleteCommandHasNoStep
  intro s hwf herr
  exact ⟨fun hq => step_of_noWord hwf herr (congrArg decode hq), step_of_incomplete hwf herr⟩

end

section
/-! PROOFS (reset and runs). A command is read from its own words alone, a whole command that is available is executed,
and a run on a finite stream executes the commands at its front and stops before the first header without one (R250 to
R260). -/

namespace Sys2Proof

open Machine

/-! ## The words of one command alone -/

theorem decode_eq_noWord {ws : List Word} (hd : decode ws = .noWord) : ws = [] := by
  cases ws with
  | nil => rfl
  | cons h rest =>
    simp only [decode] at hd
    repeat' split at hd
    all_goals cases hd

theorem length_pos_of_decode {ws : List Word} {i : Instr} {k : Nat} (hd : decode ws = .command i k) : 0 < k := by
  obtain ⟨rfl, -⟩ := lengthWords_of_decode hd
  cases i <;> simp [Instr.lengthWords]

/-- The length of a command is told by the words of that length: only a command of one word is told without word 1
(R82). -/
theorem commandLength_take {op : Opcode} {ws : List Word} {k : Nat} (hk : commandLength op ws.head? = some (k + 1)) :
    commandLength op (ws.take k).head? = some (k + 1) := by
  cases k with
  | succ k => rwa [List.head?_take, if_neg (Nat.succ_ne_zero k)]
  | zero =>
    cases op with
    | polygon | polyline | text =>
      obtain ⟨n, -, hn⟩ := Option.map_eq_some_iff.1 hk
      omega
    | _ => exact hk

/-- A whole command is read alike from its own words alone (R82, R86). -/
theorem decode_take {ws : List Word} {i : Instr} {k : Nat} (hd : decode ws = .command i k) :
    decode (ws.take k) = .command i k := by
  obtain ⟨k, rfl⟩ := Nat.exists_eq_add_one.2 (length_pos_of_decode hd)
  obtain ⟨h, rest, op, rfl, h0, hop, hk, hlen, rfl⟩ := (decode_eq_command ws i _).1 hd
  have hown := commandLength_take hk
  have hwords : k + 1 ≤ (rest.take k).length + 1 := by
    rw [List.length_cons] at hlen
    rw [List.length_take]
    omega
  have hread := readOperands_append op (rest.take k) (rest.drop k) (k + 1) hown hwords
  rw [List.take_append_drop] at hread
  exact (decode_eq_command _ _ _).2 ⟨h, rest.take k, op, rfl, h0, hop, hown, hwords, hread⟩

namespace Machine

/-! ## The step on an available command -/

/-- A whole command at the front of the queue of an unfaulted state is executed and consumed, and raises no exception
(R86, R228, R258). -/
theorem exists_step_of_command {s : State} (hs : BetweenCommands s) (herr : s.err = false) {i : Instr} {k : Nat}
    (hd : decode s.queue = .command i k) : ∃ t, step s = .next t ∧ BetweenCommands t ∧ t.err = false ∧
      t.sp = s.sp + BitVec.ofNat 32 k ∧ t.queue = s.queue.drop k := by
  obtain ⟨u, heff⟩ := exists_effect hs.1.beginCommand i
  have hstep : step s = .next (retireCommand k u) :=
    (step_eq_next _ _).2 ⟨hs.1.config, herr, .inr ⟨i, k, u, hd, (exec_eq_next _ _ _).2 heff, rfl⟩⟩
  obtain ⟨hsp, hqueue, -⟩ := step_command hd hstep
  exact ⟨_, hstep, step_keeps_inv hs hstep, heff.err_eq.trans herr, hsp, hqueue⟩

/-! ## Words sent in parts -/

theorem hostSend_append (ws more : List Word) (s : State) :
    hostSend (ws ++ more) s = hostSend more (hostSend ws s) := by
  rw [hostSend, hostSend, hostSend, List.append_assoc]

theorem hostSend_nil (s : State) : hostSend [] s = s := by
  rw [hostSend, List.append_nil]

theorem queue_hostSend_of_empty {s : State} (hq : s.queue = []) (ws : List Word) : (hostSend ws s).queue = ws := by
  rw [hostSend_queue, hq, List.nil_append]

/-! ## Runs -/

/-- The engine runs `n` steps from `s` to `t`. -/
abbrev RunsTo (n : Nat) (s t : State) : Prop := Host.Core.run Sys2Proof.core n s = .next t

theorem run_succ_eq_next (M : Host.Core) (n : Nat) (s t : M.State) :
    M.run (n + 1) s = .next t ↔ ∃ v, M.step s = .next v ∧ M.run n v = .next t := by
  rw [Host.Core.run]
  cases M.step s <;> simp

/-- A run of one step more begins with a step. -/
theorem runsTo_succ {n : Nat} {s t : State} : RunsTo (n + 1) s t ↔ ∃ v, step s = .next v ∧ RunsTo n v t :=
  run_succ_eq_next Sys2Proof.core n s t

theorem runsTo_add {n k : Nat} {s u t : State} (h : RunsTo n s u) (hrun : RunsTo k u t) : RunsTo (k + n) s t := by
  induction n generalizing s with
  | zero => cases h; exact hrun
  | succ n ih =>
    obtain ⟨v, hstep, h⟩ := runsTo_succ.1 h
    exact runsTo_succ.2 ⟨v, hstep, ih h⟩

/-- Words sent later do not change a run (R64, R261). -/
theorem runsTo_hostSend {n : Nat} {s t : State} (h : RunsTo n s t) (ws : List Word) :
    RunsTo n (hostSend ws s) (hostSend ws t) := by
  induction n generalizing s with
  | zero => cases h; rfl
  | succ n ih =>
    obtain ⟨v, hstep, h⟩ := runsTo_succ.1 h
    exact runsTo_succ.2 ⟨_, wordsSentLaterDoNotChangeAStep s v ws hstep, ih h⟩

/-! ## The commands at the front of a stream -/

/-- Sent to `s`, the first `m` words of `ws` are whole commands, which `n` steps execute, ending in `u`. -/
structure ExecutesCommands (s : State) (ws : List Word) (n m : Nat) (u : State) : Prop where
  steps : n ≤ m
  words : m ≤ ws.length
  run : RunsTo n (hostSend (ws.take m) s) u
  between : BetweenCommands u
  completed : Completed u
  sp : u.sp = s.sp + BitVec.ofNat 32 m

theorem ExecutesCommands.refl {s : State} (hs : BetweenCommands s) (herr : s.err = false) (hq : s.queue = [])
    (ws : List Word) : ExecutesCommands s ws 0 0 s where
  steps := Nat.le_refl 0
  words := Nat.zero_le _
  run := congrArg Host.Outcome.next (hostSend_nil s)
  between := hs
  completed := ⟨herr, hq, hs.2⟩
  sp := (BitVec.add_zero s.sp).symm

/-- A first command of `k` words, and then the commands at the front of the words behind it. -/
theorem ExecutesCommands.command {s v u : State} {ws : List Word} {k n m : Nat} (hk : 0 < k) (hlen : k ≤ ws.length)
    (hstep : step (hostSend (ws.take k) s) = .next v) (hsp : v.sp = s.sp + BitVec.ofNat 32 k)
    (h : ExecutesCommands v (ws.drop k) n m u) : ExecutesCommands s ws (n + 1) (k + m) u where
  steps := by have := h.steps; omega
  words := by have := h.words; rw [List.length_drop] at this; omega
  run := by
    rw [List.take_add, hostSend_append]
    exact runsTo_succ.2 ⟨_, wordsSentLaterDoNotChangeAStep _ _ _ hstep, h.run⟩
  between := h.between
  completed := h.completed
  sp := by rw [h.sp, hsp, BitVec.add_assoc, BitVec.ofNat_add]

/-- The commands at the front of a finite stream are executed until what is left is no whole command (R86, R258, R260). -/
theorem exists_executesCommands {s : State} (hs : BetweenCommands s) (herr : s.err = false) (hq : s.queue = [])
    (ws : List Word) : ∃ n m u, ExecutesCommands s ws n m u ∧ ∀ i k, decode (ws.drop m) ≠ .command i k := by
  induction hl : ws.length using Nat.strong_induction_on generalizing s ws with
  | _ l ih =>
    by_cases hcmd : ∃ i k, decode ws = .command i k
    · obtain ⟨i, k, hd⟩ := hcmd
      have hk := length_pos_of_decode hd
      obtain ⟨-, hlen⟩ := lengthWords_of_decode hd
      have hqueue := queue_hostSend_of_empty hq (ws.take k)
      obtain ⟨v, hstep, hv, hverr, hsp, hvq⟩ :=
        exists_step_of_command (hostSend_between hs (ws.take k)) herr (hqueue ▸ decode_take hd)
      have hempty : v.queue = [] := by
        rw [hvq, hqueue, List.drop_eq_nil_iff, List.length_take]
        exact Nat.min_le_left _ _
      obtain ⟨n, m, u, hexec, hrest⟩ :=
        ih (ws.drop k).length (by rw [List.length_drop]; omega) hv hverr hempty (ws.drop k) rfl
      rw [List.drop_drop] at hrest
      exact ⟨n + 1, k + m, u, hexec.command hk hlen hstep hsp, hrest⟩
    · exact ⟨0, 0, s, .refl hs herr hq ws, fun i k hd => hcmd ⟨i, k, hd⟩⟩

/-! ## The three ends of a run -/

theorem Completed.not_faulted_not_stuck {t : State} (h : Completed t) : ¬Faulted t ∧ ¬Stuck t := by
  obtain ⟨herr, hqueue, -⟩ := h
  exact ⟨fun ⟨he, _⟩ => by simp [herr] at he, fun ⟨_, hne, _⟩ => hne hqueue⟩

theorem Faulted.not_completed_not_stuck {t : State} (h : Faulted t) : ¬Completed t ∧ ¬Stuck t := by
  obtain ⟨herr, -⟩ := h
  exact ⟨fun ⟨he, _⟩ => by simp [herr] at he, fun ⟨he, _⟩ => by simp [herr] at he⟩

theorem Stuck.not_completed_not_faulted {t : State} (h : Stuck t) : ¬Completed t ∧ ¬Faulted t := by
  obtain ⟨herr, hne, -⟩ := h
  exact ⟨fun ⟨_, hqueue, _⟩ => hne hqueue, fun ⟨he, _⟩ => by simp [herr] at he⟩

/-- No step leads on from an end of a run (R223, R226, R236). -/
theorem no_step_of_end {t : State} (hwf : t.cfg.wf = true) (h : Completed t ∨ Faulted t ∨ Stuck t) (u : State) :
    step t ≠ .next u := by
  obtain ⟨herr, hqueue, -⟩ | ⟨herr, -⟩ | ⟨herr, -, hd⟩ := h
  · rw [step_of_noWord hwf herr (congrArg decode hqueue)]; nofun
  · rw [step_of_err hwf herr]; nofun
  · rw [step_of_incomplete hwf herr hd]; nofun

/-- What the words `q` behind a completed run do when they begin with no whole command: nothing if there are none, one step
that raises IllegalCommand, or nothing more until the command is all there (R222, R226, R236). -/
theorem exists_end {u : State} (hu : BetweenCommands u) (hc : Completed u) {q : List Word}
    (hcmd : ∀ i k, decode q ≠ .command i k) : ∃ n t, n ≤ q.length ∧ RunsTo n (hostSend q u) t ∧
      ((Completed t ∧ q = []) ∨ (Faulted t ∧ q ≠ []) ∨ (Stuck t ∧ q ≠ [])) ∧
      t = { u with queue := q, err := t.err, errCause := t.errCause, errWord := t.errWord, errPos := t.errPos } := by
  obtain ⟨herr, hempty, hbusy⟩ := hc
  have hqueue := queue_hostSend_of_empty hempty q
  have hsend : hostSend q u = { u with queue := q } := by rw [hostSend, hempty, List.nil_append]
  cases hd : decode q with
  | noWord =>
    obtain rfl := decode_eq_noWord hd
    exact ⟨0, hostSend [] u, Nat.zero_le _, rfl, .inl ⟨⟨herr, hqueue, hbusy⟩, rfl⟩, hsend⟩
  | illegal cause h =>
    obtain ⟨hhead, -⟩ := decode_eq_illegal q cause h hd
    have hne : q ≠ [] := by rintro rfl; cases hhead
    have hstep := step_of_illegal (s := hostSend q u) hu.1.config herr (hqueue.symm ▸ hd)
    refine ⟨1, _, List.length_pos_of_ne_nil hne, runsTo_succ.2 ⟨_, hstep, rfl⟩, .inr (.inl ⟨⟨rfl, rfl, ?_⟩, hne⟩), ?_⟩
    · exact (congrArg List.head? hqueue).trans hhead
    · rw [hsend]; rfl
  | incomplete =>
    have hne : q ≠ [] := by rintro rfl; cases hd
    exact ⟨0, hostSend q u, Nat.zero_le _, rfl, .inr (.inr ⟨⟨herr, hqueue.symm ▸ hne, hqueue.symm ▸ hd⟩, hne⟩), hsend⟩
  | command i k => exact absurd hd (hcmd i k)

end Machine
end Sys2Proof

open Sys2Proof Sys2Proof.Machine

/-- Settles O15: from a state with the invariant every command has an effect, and retiring it is the step. -/
theorem availableCommandIsExecuted : Obligations.AvailableCommandIsExecuted := by
  unfold Obligations.AvailableCommandIsExecuted
  intro s i k hs herr hd
  obtain ⟨t, hstep, -⟩ := exists_step_of_command hs herr hd
  exact ⟨t, hstep⟩

/-- Settles O54: the commands at the front of the stream are executed, each a step, the words behind them change none of
those steps, and what is left when no whole command is decides the end. -/
theorem runsEndCompletedFaultedOrStuck : Obligations.RunsEndCompletedFaultedOrStuck := by
  unfold Obligations.RunsEndCompletedFaultedOrStuck
  intro c epoch ws hc
  obtain ⟨n, m, u, hexec, hcmd⟩ := exists_executesCommands (resetOf_between hc epoch) rfl rfl ws
  obtain ⟨j, t, hj, hrun, hend, ht⟩ := exists_end hexec.between hexec.completed hcmd
  have hsteps := hexec.steps
  have hwords := hexec.words
  have hqueue : t.queue = ws.drop m := congrArg State.queue ht
  have hcfg : t.cfg = u.cfg := by rw [ht]
  have hsp : t.sp = BitVec.ofNat 32 m := by
    rw [congrArg State.sp ht, hexec.sp]
    exact BitVec.zero_add _
  rw [List.length_drop] at hj
  simp only [ne_eq, List.drop_eq_nil_iff, not_le] at hend
  refine ⟨j + n, m, t, by omega, hwords, ?_, ?_, hsp, hqueue, ?_, n, u, by omega, hexec.run, hexec.completed, ?_⟩
  · have hfirst := runsTo_hostSend hexec.run (ws.drop m)
    rw [← hostSend_append, List.take_append_drop] at hfirst
    exact runsTo_add hfirst hrun
  · exact no_step_of_end (hcfg ▸ hexec.between.1.config) (hend.imp And.left (Or.imp And.left And.left))
  · obtain ⟨h, hm⟩ | ⟨h, hm⟩ | ⟨h, hm⟩ := hend
    · exact .inl ⟨h, Nat.le_antisymm hwords hm, h.not_faulted_not_stuck⟩
    · exact .inr (.inl ⟨h, hm, h.not_completed_not_stuck⟩)
    · exact .inr (.inr ⟨h, hm, h.not_completed_not_faulted⟩)
  · rw [hqueue]
    exact ht

/-- Settles O57: the registers by evaluation, and after it the queue is the words sent, the first of them word 0. -/
theorem resetClearsEveryRegisterAndRestartsTheStream : Obligations.ResetClearsEveryRegisterAndRestartsTheStream := by
  unfold Obligations.ResetClearsEveryRegisterAndRestartsTheStream
  intro s
  refine ⟨⟨rfl, rfl, rfl, rfl, rfl, rfl, rfl, rfl, rfl, rfl, rfl, rfl, rfl, rfl, rfl, rfl, rfl⟩, ?_, ?_⟩
  · intro ws i k hwf hd
    obtain ⟨t, hstep, -, -, hsp, hqueue⟩ :=
      exists_step_of_command (hostSend_between (resetOf_between hwf (s.resetEpoch + 1)) ws) rfl hd
    exact ⟨t, hstep, hsp.trans (BitVec.zero_add _), hqueue⟩
  · intro ws cause h hwf hd
    exact ⟨_, step_of_illegal (s := hostSend ws (hostReset s)) hwf rfl hd, rfl, rfl, rfl⟩

end
